-- ==== Sys2Proof/Word.lean ====
section
/-! DEFINITION. The widths of this hardware (R6): memory words of 16 bits, values of 15 bits, bytes of 8 bits,
register numbers 0..7. -/

namespace Sys2Proof

/-- A memory cell, an instruction word, the program counter: 16 bits (R6, R16, R41). -/
abbrev Word := BitVec 16

/-- A register's content, a stack entry, any computed value, a data address: 15 bits (R6, R13, R24). -/
abbrev Val := BitVec 15

/-- A byte of the two ports and of a program file (R6, R28). -/
abbrev Byte := BitVec 8

/-- The number of a general register, r0..r7 (R13). -/
abbrev RegNum := Fin 8

/-- A value widened with a zero bit 15 to a word (R8, `zext_16`). -/
abbrev Val.toWord (v : Val) : Word := v.setWidth 16

end Sys2Proof
end

