-- ==== Sys2Proof/Config.lean ====
section
/-! DEFINITION. The fixed parameters of the hardware (R6) and its one open parameter, STACK_CAPACITY (R7).
The spec leaves no result undefined, so this file holds no free value. -/

namespace Sys2Proof

/-- The number of memory words, addresses 0..32767 (R6, MEM_WORDS). -/
def memWords : Nat := 32768

/-- The largest legal word, the register reference to r7 (R6, MAX_VALID_WORD). -/
def maxValidWord : Nat := 32775

/-- The configuration: what is fixed for a machine and no step changes (R12).
`stackCapacity` is STACK_CAPACITY: `none` is the source's unbounded stack, `some n` makes a push onto a stack of n
entries fault (R7, D8). -/
structure Config where
  stackCapacity : Option Nat
deriving DecidableEq, Repr

/-- The source's own configuration: an unbounded stack (R7, D8). DESIGN CHOICE, log entry 3: `State.reset` takes it;
every statement is over states with any configuration. -/
def Config.unbounded : Config := { stackCapacity := none }

end Sys2Proof
end

