-- ==== Sys2Proof/Syntax.lean ====
section
/-! DEFINITION. The instructions as syntax: decoded values (R9) and one constructor per row of the opcode map (R47). -/

namespace Sys2Proof

/-- A decoded word (R9): a literal 0..32767, or a reference to register 0..7. -/
inductive Value where
  | lit (n : Val)
  | reg (r : RegNum)
deriving DecidableEq, Repr

/-- The 22 instructions in opcode order (R47). An operand is the decoded value of its word; a destination operand is
one too, since a literal there decodes and then faults (R49, R54). -/
inductive Instr where
  | halt
  | set (a b : Value)
  | push (a : Value)
  | pop (a : Value)
  | eq (a b c : Value)
  | gt (a b c : Value)
  | jmp (a : Value)
  | jt (a b : Value)
  | jf (a b : Value)
  | add (a b c : Value)
  | mult (a b c : Value)
  | mod (a b c : Value)
  | and (a b c : Value)
  | or (a b c : Value)
  | not (a b : Value)
  | rmem (a b : Value)
  | wmem (a b : Value)
  | call (a : Value)
  | ret
  | out (a : Value)
  | in_ (a : Value)
  | noop
deriving DecidableEq, Repr

end Sys2Proof
end

