-- ==== Sys2Proof/Decode.lean ====
section
/-! DEFINITION. The decoder (R41 to R50) on a list of instruction words, total, each rejection under its own name; and
after it the encoder, written from the same map. -/

namespace Sys2Proof

/-- `decode(w)` of R42: a literal, a register reference, or no value for a word above 32775. -/
def decodeValue (w : Word) : Option Value :=
  if w.toNat ≤ 32767 then some (.lit (w.setWidth 15))
  else if w.toNat ≤ 32775 then some (.reg (Fin.ofNat 8 (w.toNat - 32768)))
  else none

/-- The four instruction formats, one per arity (R43), each with the instruction it makes of its decoded operands. -/
inductive Format where
  | f0 (i : Instr)
  | f1 (mk : Value → Instr)
  | f2 (mk : Value → Value → Instr)
  | f3 (mk : Value → Value → Value → Instr)

/-- The number of operand words of a format (R43). -/
def Format.arity : Format → Nat
  | .f0 _ => 0
  | .f1 _ => 1
  | .f2 _ => 2
  | .f3 _ => 3

/-- The opcode map (R45, R47): the opcode word is read as a plain number, and one outside 0..21 names no opcode (R44).
The pairing of codes and mnemonics is the spec's own (D1), log entry 7. -/
def opcodeMap (w : Word) : Option Format :=
  match w.toNat with
  | 0 => some (.f0 .halt)
  | 1 => some (.f2 .set)
  | 2 => some (.f1 .push)
  | 3 => some (.f1 .pop)
  | 4 => some (.f3 .eq)
  | 5 => some (.f3 .gt)
  | 6 => some (.f1 .jmp)
  | 7 => some (.f2 .jt)
  | 8 => some (.f2 .jf)
  | 9 => some (.f3 .add)
  | 10 => some (.f3 .mult)
  | 11 => some (.f3 .mod)
  | 12 => some (.f3 .and)
  | 13 => some (.f3 .or)
  | 14 => some (.f2 .not)
  | 15 => some (.f2 .rmem)
  | 16 => some (.f2 .wmem)
  | 17 => some (.f1 .call)
  | 18 => some (.f0 .ret)
  | 19 => some (.f1 .out)
  | 20 => some (.f1 .in_)
  | 21 => some (.f0 .noop)
  | _ => none

/-- How many operand words the fetch reads after this opcode word: its arity (R45, R46); none after an illegal one. -/
def arityOf (w : Word) : Nat :=
  match opcodeMap w with
  | some f => f.arity
  | none => 0

/-- Why no instruction is read (R51, checks 1 to 4 of R96). -/
inductive DecodeError where
  /-- There is no opcode word: `pc` is past the top of memory. -/
  | noOpcodeWord
  /-- The opcode word names no opcode (R44). -/
  | badOpcode (w : Word)
  /-- Fewer words follow the opcode word than its arity (R50). -/
  | truncated (w : Word)
  /-- An operand word is above 32775 (R48); `ow` is the lowest-numbered such word (R96). -/
  | invalidOperand (w ow : Word)
deriving DecidableEq, Repr

/-- The decoder: the opcode word, then exactly its arity of operand words, each decoded on its own (R43, R48, R58),
with the checks in the order of R96; it answers the instruction and the words after it. -/
def decode : List Word → Except DecodeError (Instr × List Word)
  | [] => .error .noOpcodeWord
  | w :: rest =>
    match opcodeMap w with
    | none => .error (.badOpcode w)
    | some (.f0 i) => .ok (i, rest)
    | some (.f1 mk) =>
      match rest with
      | a :: rest =>
        match decodeValue a with
        | none => .error (.invalidOperand w a)
        | some va => .ok (mk va, rest)
      | _ => .error (.truncated w)
    | some (.f2 mk) =>
      match rest with
      | a :: b :: rest =>
        match decodeValue a, decodeValue b with
        | none, _ => .error (.invalidOperand w a)
        | some _, none => .error (.invalidOperand w b)
        | some va, some vb => .ok (mk va vb, rest)
      | _ => .error (.truncated w)
    | some (.f3 mk) =>
      match rest with
      | a :: b :: c :: rest =>
        match decodeValue a, decodeValue b, decodeValue c with
        | none, _, _ => .error (.invalidOperand w a)
        | some _, none, _ => .error (.invalidOperand w b)
        | some _, some _, none => .error (.invalidOperand w c)
        | some va, some vb, some vc => .ok (mk va vb vc, rest)
      | _ => .error (.truncated w)

/-- The word of a decoded value: the inverse of R42. -/
def encodeValue : Value → Word
  | .lit n => n.toWord
  | .reg r => BitVec.ofNat 16 (32768 + r.val)

/-- The opcode word of an instruction (R47). -/
def Instr.code : Instr → Word
  | .halt => 0
  | .set _ _ => 1
  | .push _ => 2
  | .pop _ => 3
  | .eq _ _ _ => 4
  | .gt _ _ _ => 5
  | .jmp _ => 6
  | .jt _ _ => 7
  | .jf _ _ => 8
  | .add _ _ _ => 9
  | .mult _ _ _ => 10
  | .mod _ _ _ => 11
  | .and _ _ _ => 12
  | .or _ _ _ => 13
  | .not _ _ => 14
  | .rmem _ _ => 15
  | .wmem _ _ => 16
  | .call _ => 17
  | .ret => 18
  | .out _ => 19
  | .in_ _ => 20
  | .noop => 21

/-- The operands in encoding order a, b, c (R43). -/
def Instr.operands : Instr → List Value
  | .halt | .ret | .noop => []
  | .push a | .pop a | .jmp a | .call a | .out a | .in_ a => [a]
  | .set a b | .jt a b | .jf a b | .not a b | .rmem a b | .wmem a b => [a, b]
  | .eq a b c | .gt a b c | .add a b c | .mult a b c | .mod a b c | .and a b c | .or a b c => [a, b, c]

/-- The words of an instruction: the opcode word, then one word per operand (R43). -/
def encode (i : Instr) : List Word :=
  i.code :: i.operands.map encodeValue

/-- The length of an instruction in words, 1 + arity (R43, R46). -/
def Instr.length (i : Instr) : Nat := (encode i).length

/-- The first `n` 16-bit words of a table word whose bits are `w`, the first word in its low bits. -/
def wordsOfBits : Nat → Nat → List Word
  | 0, _ => []
  | n + 1, w => BitVec.ofNat 16 w :: wordsOfBits n (w / 65536)

/-- A table word of `nbits` bits as the four words of the longest instruction (R6, MAX_ARITY), the bits above `nbits` zero. -/
def tableWords (nbits w : Nat) : List Word := wordsOfBits 4 (w % 2 ^ nbits)

/-- The instruction the decoder reads from an instruction whose bits are `w`, bit 0 the least significant bit of the
opcode word, a later word's bits counting on; memory holds words, so there is no byte order to lay them out in (R27, R28). -/
def decodeTableWord (nbits w : Nat) : Option Instr :=
  match decode (tableWords nbits w) with
  | .ok (i, _) => some i
  | .error _ => none

end Sys2Proof
end

