-- ==== Sys2Proof/Machine/Flags.lean ====
section
/-! DEFINITION. The core has no status flags and no condition codes (R17). Its only flag is the jumped flag, which lives
within one step (R25) and chooses the next `pc` (R64); and a comparison's outcome is a value 0 or 1 in a register. -/

namespace Sys2Proof.Machine

/-- The control-flow router (R64). `jump` is the jumped flag with its target: `some t` when the instruction did
`pc <- t`, `none` when it set no `pc` and `pc` advances by the instruction's length. A taken jump to the instruction's
own address stays there: the flag decides, not a comparison of addresses. -/
def nextPc (p : Word) (length : Nat) (jump : Option Val) : Word :=
  match jump with
  | some target => target.toWord
  | none => p + BitVec.ofNat 16 length

/-- The value a comparison writes (R79, R80): 1 for true, 0 for false. -/
def truthVal (b : Bool) : Val := if b then 1 else 0

end Sys2Proof.Machine
end

