-- ==== Sys2Proof/Machine/State.lean ====
section
/-! DEFINITION. The state of the core as plain data (R12 to R26), its stop records (R18, R20, R92, R93), the outcomes a
step can have besides a next state, and the state after reset (R111). -/

namespace Sys2Proof.Machine

/-- The reason of a designed halt (R92). -/
inductive HaltReason where
  | haltInstr
  | popEmpty
  | retEmpty
deriving DecidableEq, Repr

/-- The kind of a fault of the core (R93). -/
inductive FaultKind where
  | decodeBadOpcode
  | decodeTruncated
  | decodeInvalidOperand
  | destNotRegister
  | regrefAsData
  | divideByZero
  | addressBounds
  | stackOverflow
deriving DecidableEq, Repr

/-- The kind-specific value of a fault record, the last column of R93. -/
inductive Detail where
  | none
  | operandWord (w : Word)
  | cell (addr : Val) (w : Word)
  | address (a : Nat)
  | depth (n : Nat)
deriving DecidableEq, Repr

/-- The fault record (R20): the kind, the `pc` of the faulting instruction, its opcode word (none when that address is
past the top of memory) and the kind's own value. -/
structure FaultRecord where
  kind : FaultKind
  addr : Word
  word : Option Word
  detail : Detail
deriving DecidableEq, Repr

/-- The run status with its stop record (R18). -/
inductive Status where
  | running
  | halted (reason : HaltReason)
  | error (record : FaultRecord)
deriving DecidableEq, Repr

/-- Memory: the cells that do not hold 0, as (word address, word) pairs in rising address order (R22, R27; the form is
`Memory.wf`). The unit is the 16-bit word, the smallest thing this hardware addresses; log entry 1. -/
abbrev Memory := List (Nat × Word)

/-- The machine record of R12, and beside it what R12 keeps outside: the configuration (R7) and the host's input and
output streams (R26). -/
structure State where
  /-- General registers r0..r7 (R13). -/
  regs : Vector Val 8
  /-- Main memory (R22). -/
  mem : Memory
  /-- The stack, top first (R24). -/
  stack : List Val
  /-- The program counter (R16). -/
  pc : Word
  /-- The run status (R18). -/
  status : Status
  /-- STACK_CAPACITY (R7): no step changes it; log entry 3. -/
  config : Config
  /-- The bytes delivered by the host and not yet taken by `in`, oldest first (R88); log entry 4. -/
  input : List Byte
  /-- The bytes emitted by `out` and not yet taken by the host, oldest first (R87); log entry 4. -/
  output : List Byte
deriving DecidableEq, Repr

/-- Why a step has no next state. The core's own faults are not here: they are next states whose status is `error`. -/
inductive Fault where
  /-- Raised by `in` when the host has delivered no byte: the step holds and has no transition, the state is as before
  and the step is asked again once a byte is delivered (R89). Safe: nothing can be proved to follow. Log entry 5. -/
  | inputHold
deriving DecidableEq, Repr

/-- Why the model gives no meaning. -/
inductive Refusal where
  /-- Answered by an arm of `exec` whose instruction has no meaning yet; no arm is left in this model. Safe. -/
  | notModelled (mnemonic : String)
deriving DecidableEq, Repr

/-- The outcome of an instruction or a step. -/
abbrev Result := Host.Outcome State Fault Refusal

/-- The reset state of R111 on a machine with this configuration. -/
def State.resetWith (cfg : Config) : State where
  regs := Vector.replicate 8 0
  mem := []
  stack := []
  pc := 0
  status := .running
  config := cfg
  input := []
  output := []

/-- The machine right after reset (R111), with the source's unbounded stack (D8, log entry 3). -/
def State.reset : State := State.resetWith Config.unbounded

end Sys2Proof.Machine
end

