-- ==== Sys2Proof/Machine/Ops.lean ====
section
/-! DEFINITION. The named operations over memory, registers, the stack and the two ports, and the three ways an
instruction ends: it finishes through the router (R64), it stops by a designed halt (R94), or it raises a fault (R95). -/

namespace Sys2Proof.Machine

/-- The numeric code of a halt reason (R92, D11). -/
def HaltReason.code : HaltReason → Nat
  | .haltInstr => 0
  | .popEmpty => 1
  | .retEmpty => 2

/-- The numeric code of a fault kind (R93, D11). -/
def FaultKind.code : FaultKind → Nat
  | .decodeBadOpcode => 1
  | .decodeTruncated => 2
  | .decodeInvalidOperand => 3
  | .destNotRegister => 4
  | .regrefAsData => 5
  | .divideByZero => 6
  | .addressBounds => 7
  | .stackOverflow => 8

/-! ### Memory -/

/-- What a cell that is not listed holds: 0, the reset content of every cell (R32, R111). -/
def Memory.unlisted : Word := 0

/-- The word in cell `a` (R10 `MemRead`). -/
def Memory.read : Memory → Nat → Word
  | [], _ => Memory.unlisted
  | (k, w) :: m, a => if k = a then w else Memory.read m a

/-- The memory without an entry for `a`. -/
def Memory.erase : Memory → Nat → Memory
  | [], _ => []
  | (k, w) :: m, a => if k = a then Memory.erase m a else (k, w) :: Memory.erase m a

/-- The memory with an entry put before the first larger address. -/
def Memory.insert : Memory → Nat → Word → Memory
  | [], a, w => [(a, w)]
  | (k, x) :: m, a, w => if a < k then (a, w) :: (k, x) :: m else (k, x) :: Memory.insert m a w

/-- Write one word (R10 `MemWrite`), keeping the canonical form: writing what an unlisted cell holds lists nothing. -/
def Memory.write (m : Memory) (a : Nat) (w : Word) : Memory :=
  if w = Memory.unlisted then Memory.erase m a else Memory.insert (Memory.erase m a) a w

/-- Every address of the list is above `low` and they rise strictly. -/
def Memory.risingFrom (low : Nat) : Memory → Bool
  | [] => true
  | (k, _) :: m => decide (low ≤ k) && Memory.risingFrom (k + 1) m

/-- The canonical form: addresses strictly rising, all inside 0..32767 (R22), no entry that says what an unlisted cell
says anyway. -/
def Memory.wf (m : Memory) : Bool :=
  Memory.risingFrom 0 m && m.all fun e => decide (e.1 < memWords) && decide (e.2 ≠ Memory.unlisted)

/-- Write words to consecutive addresses from `a` upward, inside memory only: memory does not wrap (R50, R113). -/
def Memory.writeWords : Memory → Nat → List Word → Memory
  | m, _, [] => m
  | m, a, w :: ws => if a < memWords then Memory.writeWords (m.write a w) (a + 1) ws else m

/-- Read up to `n` words at consecutive addresses from `a` upward, those that lie inside memory (R50, R58). -/
def Memory.readWords (m : Memory) : Nat → Nat → List Word
  | _, 0 => []
  | a, n + 1 => if a < memWords then m.read a :: Memory.readWords m (a + 1) n else []

/-! ### The state's accessors -/

/-- Read a register (R14). -/
def State.readReg (s : State) (r : RegNum) : Val := s.regs[r]

/-- Write a register (R14, R63). -/
def State.writeReg (s : State) (r : RegNum) (v : Val) : State := { s with regs := s.regs.set r v }

/-- Read the memory cell at a data address; a data address is 15-bit, so it is always in memory (R33). -/
def State.readMem (s : State) (a : Val) : Word := s.mem.read a.toNat

/-- Write a value to the memory cell at a data address (R10, R30). -/
def State.writeMem (s : State) (a v : Val) : State := { s with mem := s.mem.write a.toNat v.toWord }

/-- Append to the top of the stack (R10 `Push`). -/
def State.push (s : State) (v : Val) : State := { s with stack := v :: s.stack }

/-- The stack is at STACK_CAPACITY (R7, R70, R76): never, when there is no capacity. -/
def State.stackFull (s : State) : Bool :=
  match s.config.stackCapacity with
  | some n => decide (s.stack.length = n)
  | none => false

/-- Hand a byte to the output port (R87 `Emit`). -/
def State.emit (s : State) (b : Byte) : State := { s with output := s.output ++ [b] }

/-! ### How an instruction ends -/

/-- The router moves `pc` (R64). -/
def State.route (s : State) (length : Nat) (jump : Option Val) : State := { s with pc := nextPc s.pc length jump }

/-- The instruction is complete and the router chooses the next `pc` (R64). -/
def finish (length : Nat) (jump : Option Val) (s : State) : Result := .next (s.route length jump)

/-- `stop <reason>`: a designed halt; the step then finishes normally, so `pc` advances (R94, R65; D7, log entry 8). -/
def stop (reason : HaltReason) (length : Nat) (s : State) : Result :=
  finish length none { s with status := .halted reason }

/-- `raise <kind>(info)`: TAKING A FAULT. The status becomes the record of R20 with `pc` as its address, and nothing
else changes, `pc` included (R95). There is no return from it (R99). -/
def raise (kind : FaultKind) (word : Option Word) (detail : Detail) (s : State) : Result :=
  .next { s with status := .error { kind := kind, addr := s.pc, word := word, detail := detail } }

end Sys2Proof.Machine
end

