-- ==== Sys2Proof/Machine/Operands.lean ====
section
/-! DEFINITION. The operand forms (R47): a value operand (role V) is resolved, a destination operand (role D) must be a
register. The third role, A of `add`, is in `execAdd`. -/

namespace Sys2Proof.Machine

/-- `resolve(v)` (R61): a literal is itself, a register reference is the register's content. -/
def State.resolve (s : State) : Value → Val
  | .lit n => n
  | .reg r => s.readReg r

/-- A destination operand of role D of the instruction with opcode word `code` (R49): a register goes on, a literal
faults with its operand word before any other check of the instruction (R96). -/
def withDest (code : Word) (a : Value) (s : State) (go : RegNum → Result) : Result :=
  match a with
  | .reg r => go r
  | .lit n => raise .destNotRegister (some code) (.operandWord (encodeValue (.lit n))) s

end Sys2Proof.Machine
end

