-- ==== Sys2Proof/Machine/Alu.lean ====
section
/-! DEFINITION. Arithmetic, logic and comparison: eq, gt, add, mult, mod, and, or, not (44_alu.md, R78 to R86).
Operands are unsigned 15-bit; sums and products are exact natural numbers, reduced modulo 32768 at the end (R78). -/

namespace Sys2Proof.Machine

/-- The sum of R81, exact and then modulo 32768. -/
def aluAdd (b c : Val) : Val := BitVec.ofNat 15 ((b.toNat + c.toNat) % 32768)

/-- The product of R82, exact and then modulo 32768. -/
def aluMult (b c : Val) : Val := BitVec.ofNat 15 ((b.toNat * c.toNat) % 32768)

/-- The remainder of R83; `execMod` asks for it only with a divisor that is not 0. -/
def aluMod (b c : Val) : Val := BitVec.ofNat 15 (b.toNat % c.toNat)

/-- An instruction that computes a register from two values and can only fail by its destination. -/
def execBinary (code : Word) (f : Val → Val → Val) (a b c : Value) (s : State) : Result :=
  withDest code a s fun r => finish 4 none (s.writeReg r (f (s.resolve b) (s.resolve c)))

/-- `eq a b c` (R79). -/
def execEq (a b c : Value) (s : State) : Result := execBinary 4 (fun x y => truthVal (decide (x = y))) a b c s

/-- `gt a b c` (R80), unsigned. -/
def execGt (a b c : Value) (s : State) : Result :=
  execBinary 5 (fun x y => truthVal (decide (x.toNat > y.toNat))) a b c s

/-- `add a b c` (R81): the destination (role A) is a register or a literal memory address. -/
def execAdd (a b c : Value) (s : State) : Result :=
  match a with
  | .reg r => finish 4 none (s.writeReg r (aluAdd (s.resolve b) (s.resolve c)))
  | .lit n => finish 4 none (s.writeMem n (aluAdd (s.resolve b) (s.resolve c)))

/-- `mult a b c` (R82). -/
def execMult (a b c : Value) (s : State) : Result := execBinary 10 aluMult a b c s

/-- `mod a b c` (R83): a divisor of 0 faults (D6), after the destination check (R96). -/
def execMod (a b c : Value) (s : State) : Result :=
  withDest 11 a s fun r =>
    if s.resolve c = 0 then raise .divideByZero (some 11) .none s
    else finish 4 none (s.writeReg r (aluMod (s.resolve b) (s.resolve c)))

/-- `and a b c` (R84). -/
def execAnd (a b c : Value) (s : State) : Result := execBinary 12 (fun x y => x &&& y) a b c s

/-- `or a b c` (R85). -/
def execOr (a b c : Value) (s : State) : Result := execBinary 13 (fun x y => x ||| y) a b c s

/-- `not a b` (R86): the complement of 15 bits. -/
def execNot (a b : Value) (s : State) : Result :=
  withDest 14 a s fun r => finish 3 none (s.writeReg r (s.resolve b ^^^ 0x7FFF))

end Sys2Proof.Machine
end

