-- ==== Sys2Proof/Machine/Control.lean ====
section
/-! DEFINITION. Control flow: halt, jmp, jt, jf, call, ret, noop (41_control.md, R66 to R72). -/

namespace Sys2Proof.Machine

/-- `halt` (R66). -/
def execHalt (s : State) : Result := stop .haltInstr 1 s

/-- `jmp a` (R67). -/
def execJmp (a : Value) (s : State) : Result := finish 2 (some (s.resolve a)) s

/-- `jt a b` (R68): jump to b when a is not 0. -/
def execJt (a b : Value) (s : State) : Result :=
  finish 3 (if s.resolve a ≠ 0 then some (s.resolve b) else none) s

/-- `jf a b` (R69): jump to b when a is 0. -/
def execJf (a b : Value) (s : State) : Result :=
  finish 3 (if s.resolve a = 0 then some (s.resolve b) else none) s

/-- `call a` (R70). The return address `pc` + 2 is a number in the check, so that 32768 is seen to lie outside memory. The address check
comes before the capacity check (R96). -/
def execCall (a : Value) (s : State) : Result :=
  if s.pc.toNat + 2 > 32767 then raise .addressBounds (some 17) (.address (s.pc.toNat + 2)) s
  else if s.stackFull then raise .stackOverflow (some 17) (.depth s.stack.length) s
  else finish 2 (some (s.resolve a)) (s.push (BitVec.ofNat 15 (s.pc.toNat + 2)))

/-- `ret` (R71). -/
def execRet (s : State) : Result :=
  match s.stack with
  | [] => stop .retEmpty 1 s
  | v :: rest => finish 1 (some v) { s with stack := rest }

/-- `noop` (R72). -/
def execNoop (s : State) : Result := finish 1 none s

end Sys2Proof.Machine
end

