-- ==== Sys2Proof/Machine/PortIo.lean ====
section
/-! DEFINITION. Input and output: out, in (45_io.md, R87 to R91). -/

namespace Sys2Proof.Machine

/-- `out a` (R90): emits the low 8 bits; the port never refuses or delays (R87). -/
def execOut (a : Value) (s : State) : Result :=
  finish 2 none (s.emit ((s.resolve a).setWidth 8))

/-- `in a` (R91): takes the next delivered byte, widened with zeros; with none delivered the step holds and has no
transition (R89). The destination check comes first, so a faulting `in` takes no byte. -/
def execIn (a : Value) (s : State) : Result :=
  withDest 20 a s fun r =>
    match s.input with
    | [] => .fault .inputHold
    | b :: rest => finish 2 none ({ s with input := rest }.writeReg r (b.setWidth 15))

end Sys2Proof.Machine
end

