-- ==== Sys2Proof/Machine/Stack.lean ====
section
/-! DEFINITION. Stack instructions: push, pop (43_stack.md, R76, R77). -/

namespace Sys2Proof.Machine

/-- `push a` (R76). -/
def execPush (a : Value) (s : State) : Result :=
  if s.stackFull then raise .stackOverflow (some 2) (.depth s.stack.length) s
  else finish 2 none (s.push (s.resolve a))

/-- `pop a` (R77): the destination check wins over the empty-stack halt (R96). -/
def execPop (a : Value) (s : State) : Result :=
  withDest 3 a s fun r =>
    match s.stack with
    | [] => stop .popEmpty 2 s
    | v :: rest => finish 2 none ({ s with stack := rest }.writeReg r v)

end Sys2Proof.Machine
end

