-- ==== Sys2Proof/Machine/Transfer.lean ====
section
/-! DEFINITION. Register and memory transfer: set, rmem, wmem (42_register_memory.md, R73 to R75). -/

namespace Sys2Proof.Machine

/-- `set a b` (R73). -/
def execSet (a b : Value) (s : State) : Result :=
  withDest 1 a s fun r => finish 3 none (s.writeReg r (s.resolve b))

/-- `rmem a b` (R74): a cell holding a word above 32767 is not data and faults (D2). -/
def execRmem (a b : Value) (s : State) : Result :=
  withDest 15 a s fun r =>
    if (s.readMem (s.resolve b)).toNat > 32767 then
      raise .regrefAsData (some 15) (.cell (s.resolve b) (s.readMem (s.resolve b))) s
    else finish 3 none (s.writeReg r ((s.readMem (s.resolve b)).setWidth 15))

/-- `wmem a b` (R75): a is a value operand, the address. -/
def execWmem (a b : Value) (s : State) : Result :=
  finish 3 none (s.writeMem (s.resolve a) (s.resolve b))

end Sys2Proof.Machine
end

