-- ==== Sys2Proof/Machine/Fetch.lean ====
section
/-! DEFINITION. Fetching an instruction's words (R58), the faults of the fetch (R51, checks 1 to 4 of R96), and placing an
instruction where the next fetch reads it. -/

namespace Sys2Proof.Machine

/-- The words of the instruction at address `a`: the opcode word and then exactly its arity of operand words, as far as
they lie inside memory (R50, R58). -/
def Memory.fetchAt (m : Memory) (a : Nat) : List Word :=
  if a < memWords then m.read a :: m.readWords (a + 1) (arityOf (m.read a)) else []

/-- The words the fetch reads at `pc` (R58). -/
def State.fetch (s : State) : List Word := s.mem.fetchAt s.pc.toNat

/-- The fault of a fetch that decodes no instruction (R54, R93 kinds 1 to 3). -/
def raiseDecode (e : DecodeError) (s : State) : Result :=
  match e with
  | .noOpcodeWord => raise .decodeTruncated none .none s
  | .badOpcode w => raise .decodeBadOpcode (some w) .none s
  | .truncated w => raise .decodeTruncated (some w) .none s
  | .invalidOperand w ow => raise .decodeInvalidOperand (some w) (.operandWord ow) s

/-- The machine with an instruction's words stored at `pc` and running, so that its next step fetches them: as many
words as the opcode word's length, the rest of memory as it was. -/
def State.placeAtPc (s : State) (ws : List Word) : State :=
  { s with
    mem := s.mem.writeWords s.pc.toNat (ws.take (1 + arityOf (ws.headD 0)))
    status := .running }

end Sys2Proof.Machine
end

