-- ==== Sys2Proof/Machine/Step.lean ====
section
/-! DEFINITION. The step (R54): a stopped core changes nothing (R56); a running one fetches, decodes and executes exactly
one instruction. -/

namespace Sys2Proof.Machine

/-- One step (R54, R56). -/
def step (s : State) : Host.Outcome State Fault Refusal :=
  match s.status with
  | .running =>
    match decode s.fetch with
    | .ok (i, _) => exec i s
    | .error e => raiseDecode e s
  | .halted _ => .next s
  | .error _ => .next s

/-- The machine with the instruction whose bits are `w` stored where the next step fetches: at `pc`, the core running.
It stands for the load from outside the machine; log entry 2. -/
def State.withFetchWord (s : State) (nbits w : Nat) : State := s.placeAtPc (tableWords nbits w)

end Sys2Proof.Machine
end

