-- ==== Sys2Proof/Machine/Disassemble.lean ====
section
/-! DEFINITION. The Debug Console's `dmp` (R109) in the notation of R52: a linear disassembly that only reads memory. -/

namespace Sys2Proof.Machine

/-- One line of a disassembly: an instruction, or a word that is none (R52 `.word n`). -/
inductive DisasmItem where
  | instr (i : Instr)
  | word (w : Word)
deriving DecidableEq, Repr

/-- The words a line stands for. -/
def DisasmItem.words : DisasmItem → List Word
  | .instr i => encode i
  | .word w => [w]

/-- At most `fuel` lines from address `a` upward, each instruction skipping 1 + arity words (R109). Where no instruction
decodes, one word is skipped: the spec gives no rule there (N15); DESIGN CHOICE, log entry 11. -/
def Memory.disassemble (m : Memory) : Nat → Nat → List (Nat × DisasmItem)
  | 0, _ => []
  | fuel + 1, a =>
    if a < memWords then
      match decode (m.fetchAt a) with
      | .ok (i, _) => (a, .instr i) :: Memory.disassemble m fuel (a + i.length)
      | .error _ => (a, .word (m.read a)) :: Memory.disassemble m fuel (a + 1)
    else []

/-- `dmp`: all of memory from address 0 (R109). -/
def State.dmp (s : State) : List (Nat × DisasmItem) := s.mem.disassemble memWords 0

/-- The mnemonic of an instruction (R47). -/
def mnemonicOf : Instr → String
  | .halt => "halt"
  | .set _ _ => "set"
  | .push _ => "push"
  | .pop _ => "pop"
  | .eq _ _ _ => "eq"
  | .gt _ _ _ => "gt"
  | .jmp _ => "jmp"
  | .jt _ _ => "jt"
  | .jf _ _ => "jf"
  | .add _ _ _ => "add"
  | .mult _ _ _ => "mult"
  | .mod _ _ _ => "mod"
  | .and _ _ _ => "and"
  | .or _ _ _ => "or"
  | .not _ _ => "not"
  | .rmem _ _ => "rmem"
  | .wmem _ _ => "wmem"
  | .call _ => "call"
  | .ret => "ret"
  | .out _ => "out"
  | .in_ _ => "in"
  | .noop => "noop"

/-- An operand in the notation of R52: a register as r0..r7, a literal in decimal. -/
def valueText : Value → String
  | .lit n => toString n.toNat
  | .reg r => "r" ++ toString r.val

/-- A line in the notation of R52 and R109: the address, a bar, the mnemonic and its operands. -/
def lineText : Nat × DisasmItem → String
  | (a, .instr i) => (i.operands.map valueText).foldl (fun t o => t ++ " " ++ o) (toString a ++ " | " ++ mnemonicOf i)
  | (a, .word w) => toString a ++ " | .word " ++ toString w.toNat

end Sys2Proof.Machine
end

