-- ==== Sys2Proof/Machine/Load.lean ====
section
/-! DEFINITION. Loading a program file (R28, R112, R113). -/

namespace Sys2Proof.Machine

/-- Why a load fails (R112). -/
inductive LoadError where
  /-- The file has an odd number of bytes. -/
  | oddLength (bytes : Nat)
  /-- The file has more than 32768 words. -/
  | tooManyWords (words : Nat)
  /-- `InvalidWordError`: the first word above 32775, and the byte offset of its low byte. -/
  | invalidWord (offset : Nat) (word : Word)
deriving DecidableEq, Repr

/-- The file's little-endian words: word i is `bytes[2i] + 256 × bytes[2i+1]` (R28). -/
def wordsOfBytes : List Byte → List Word
  | lo :: hi :: rest => BitVec.ofNat 16 (lo.toNat + 256 * hi.toNat) :: wordsOfBytes rest
  | _ => []

/-- The first word above 32775 with the byte offset of its low byte, the words starting at byte `offset` (R112, D21). -/
def firstInvalid : Nat → List Word → Option (Nat × Word)
  | _, [] => none
  | offset, w :: ws => if w.toNat > maxValidWord then some (offset, w) else firstInvalid (offset + 2) ws

/-- The load of a file's words: the second and the third check (R112), then reset followed by the words from address 0
upward (R113). -/
def loadWords (cfg : Config) (ws : List Word) : Except LoadError State :=
  if ws.length > memWords then .error (.tooManyWords ws.length)
  else
    match firstInvalid 0 ws with
    | some (offset, w) => .error (.invalidWord offset w)
    | none => .ok { State.resetWith cfg with mem := Memory.writeWords [] 0 ws }

/-- `load(bytes)`: the first check, an even length, comes before the others (R112). -/
def load (cfg : Config) (bytes : List Byte) : Except LoadError State :=
  if bytes.length % 2 = 1 then .error (.oddLength bytes.length) else loadWords cfg (wordsOfBytes bytes)

end Sys2Proof.Machine
end

