-- ==== Sys2Proof/Machine/HostInterface.lean ====
section
/-! DEFINITION. What the host does to the core (R102 to R105): the report of a step, register writes, the two ports' other
ends, a run, and all of it as one list of actions. -/

namespace Sys2Proof.Machine

/-- What a completed step reports (R57). -/
inductive StepReport where
  | continues
  | halted (reason : HaltReason)
  | error (record : FaultRecord)
deriving DecidableEq, Repr

/-- The report read from the status after the step (R57). -/
def State.report (s : State) : StepReport :=
  match s.status with
  | .running => .continues
  | .halted r => .halted r
  | .error f => .error f

/-- Why the host's register write is refused (R103). It does not stop the core. -/
inductive HostWriteError where
  /-- `AddressBoundsError`: the register index is outside 0..7. -/
  | addressBounds (index : Nat)
  /-- The value is above 32767. -/
  | valueTooLarge (v : Nat)
deriving DecidableEq, Repr

/-- The host's register write: the pre-seed and the Debug Console's `set` (R103). -/
def hostWriteReg (index v : Nat) (s : State) : Except HostWriteError State :=
  if index > 7 then .error (.addressBounds index)
  else if v > 32767 then .error (.valueTooLarge v)
  else .ok (s.writeReg (Fin.ofNat 8 index) (BitVec.ofNat 15 v))

/-- The host delivers bytes to the input port, after those already delivered (R88). -/
def hostDeliver (bytes : List Byte) (s : State) : State := { s with input := s.input ++ bytes }

/-- The host takes the emitted bytes, in the order they were emitted (R87, R102). -/
def hostTakeOutput (s : State) : List Byte × State := (s.output, { s with output := [] })

/-- One action of the host (R102). -/
inductive HostAction where
  | step
  | writeReg (index v : Nat)
  | deliver (bytes : List Byte)
  | takeOutput
deriving DecidableEq, Repr

/-- The core after one action: a held step and a refused write change nothing (R55, R89, R103). -/
def hostAct (s : State) : HostAction → State
  | .step =>
    match step s with
    | .next t => t
    | .fault _ => s
    | .refused _ => s
  | .writeReg index v =>
    match hostWriteReg index v s with
    | .ok t => t
    | .error _ => s
  | .deliver bytes => hostDeliver bytes s
  | .takeOutput => (hostTakeOutput s).2

/-- How `run_to_completion` comes to its end (R105). -/
inductive RunEnd where
  /-- A step reported Halted or Error. -/
  | ended (s : State)
  /-- `in` holds and no byte is there. -/
  | holding (s : State)
  /-- The host stopped asking for steps (R104). -/
  | stoppedByHost (s : State)
deriving DecidableEq, Repr

/-- `run_to_completion`: `step` repeated while the outcome is Continue, the host asking for at most `k` steps (R102, R104);
log entry 10. -/
def runToCompletion : Nat → State → RunEnd
  | 0, s => .stoppedByHost s
  | k + 1, s =>
    match step s with
    | .next t => if t.report = .continues then runToCompletion k t else .ended t
    | .fault _ => .holding s
    | .refused _ => .holding s

end Sys2Proof.Machine
end

