-- ==== Sys2Proof/WellFormed.lean ====
section
/-! DEFINITION. Well-formed instructions: a destination operand of role D is a register (R49).
The bounds of literals and register numbers are in the types (R9), so role D is the one check there is. -/

namespace Sys2Proof

/-- The value is a register reference. -/
def Value.isReg : Value → Bool
  | .lit _ => false
  | .reg _ => true

/-- The operand of role D, for the instructions that have one (R47, R93 kind 4). -/
def Instr.destOperand : Instr → Option Value
  | .set a _ | .pop a | .eq a _ _ | .gt a _ _ | .mult a _ _ | .mod a _ _ | .and a _ _ | .or a _ _ | .not a _
  | .rmem a _ | .in_ a => some a
  | .halt | .push _ | .jmp _ | .jt _ _ | .jf _ _ | .add _ _ _ | .wmem _ _ | .call _ | .ret | .out _ | .noop => none

/-- A well-formed instruction has no literal in a D operand (R49). -/
def Instr.wellFormed (i : Instr) : Bool :=
  match i.destOperand with
  | some a => a.isReg
  | none => true

end Sys2Proof
end

