-- ==== Sys2Proof/Safety.lean ====
section
/-! DEFINITION. The terms in which claims about this machine are made: what a step keeps, what each kind of ending leaves,
the invariant of the machine, and the states a host can bring about. -/

namespace Sys2Proof.Machine

/-! ### What stays -/

/-- Every register is unchanged. -/
def RegsKept (s t : State) : Prop := ∀ q : RegNum, t.readReg q = s.readReg q

/-- Every register but `r` is unchanged. -/
def OtherRegsKept (r : RegNum) (s t : State) : Prop := ∀ q : RegNum, q ≠ r → t.readReg q = s.readReg q

/-- Every one of the 32768 memory cells reads as before. -/
def MemKept (s t : State) : Prop := ∀ a : Val, t.readMem a = s.readMem a

/-- Every memory cell but the one at `a` reads as before. -/
def OtherMemKept (a : Val) (s t : State) : Prop := ∀ b : Val, b ≠ a → t.readMem b = s.readMem b

/-- The host's streams and the configuration are unchanged. -/
def StreamsKept (s t : State) : Prop := t.input = s.input ∧ t.output = s.output ∧ t.config = s.config

/-! ### How an instruction may end -/

/-- From `s` to `t` only register `r` was written, with the number `n`, and `pc` moved past `length` words. -/
structure WroteReg (s t : State) (r : RegNum) (n length : Nat) : Prop where
  value : (t.readReg r).toNat = n
  others : OtherRegsKept r s t
  mem : MemKept s t
  stack : t.stack = s.stack
  pc : t.pc = s.pc + BitVec.ofNat 16 length
  status : t.status = s.status
  streams : StreamsKept s t

/-- From `s` to `t` only the cell at `a` was written, with the number `n`, and `pc` moved past `length` words. -/
structure WroteMem (s t : State) (a : Val) (n length : Nat) : Prop where
  value : (t.readMem a).toNat = n
  others : OtherMemKept a s t
  regs : RegsKept s t
  stack : t.stack = s.stack
  pc : t.pc = s.pc + BitVec.ofNat 16 length
  status : t.status = s.status
  streams : StreamsKept s t

/-- From `s` to `t` only the stack and `pc` changed: they are `stack` and `pc`. -/
structure MovedTo (s t : State) (stack : List Val) (pc : Word) : Prop where
  stack : t.stack = stack
  pc : t.pc = pc
  regs : RegsKept s t
  mem : MemKept s t
  status : t.status = s.status
  streams : StreamsKept s t

/-- A designed halt (R94): the status is `Halted(reason)`, `pc` moved past `length` words, nothing else changed. -/
structure Stopped (s t : State) (reason : HaltReason) (length : Nat) : Prop where
  status : t.status = .halted reason
  pc : t.pc = s.pc + BitVec.ofNat 16 length
  regs : RegsKept s t
  mem : MemKept s t
  stack : t.stack = s.stack
  streams : StreamsKept s t

/-- A fault (R95): the status is the record, whose address is `pc`; nothing else changed, no byte was taken or emitted. -/
structure Raised (s t : State) (kind : FaultKind) (word : Option Word) (detail : Detail) : Prop where
  status : t.status = .error { kind := kind, addr := s.pc, word := word, detail := detail }
  pc : t.pc = s.pc
  regs : RegsKept s t
  mem : MemKept s t
  stack : t.stack = s.stack
  streams : StreamsKept s t

/-- The fault of a literal in the destination operand (R49, R93 kind 4). -/
def RaisedDest (s t : State) (code : Word) (n : Val) : Prop :=
  Raised s t .destNotRegister (some code) (.operandWord n.toWord)

/-! ### The places an instruction names -/

/-- The register an instruction's destination operand names (R14): roles D and A of R47. -/
def destReg : Instr → Option RegNum
  | .set (.reg r) _ | .pop (.reg r) | .eq (.reg r) _ _ | .gt (.reg r) _ _ | .add (.reg r) _ _ | .mult (.reg r) _ _
  | .mod (.reg r) _ _ | .and (.reg r) _ _ | .or (.reg r) _ _ | .not (.reg r) _ | .rmem (.reg r) _ | .in_ (.reg r) => some r
  | _ => none

/-- The address an instruction stores to (R30): `wmem` its resolved a, `add` its literal destination, no other any. -/
def storeAddress (s : State) : Instr → Option Val
  | .wmem a _ => some (s.resolve a)
  | .add (.lit n) _ _ => some n
  | _ => none

/-- The instructions that may set `pc` (R64). -/
def maySetPc : Instr → Bool
  | .jmp _ | .jt _ _ | .jf _ _ | .call _ | .ret => true
  | _ => false

/-! ### The invariant -/

/-- The opcode word at `pc`, none past the top of memory (R20). -/
def wordAtPc (s : State) : Option Word :=
  if s.pc.toNat < memWords then some (s.mem.read s.pc.toNat) else none

/-- The kind-specific value of a record is as R93's last column says. DECODE_INVALID_OPERAND fits no value: it cannot occur
in a memory the load and the instructions built (R48, R93). -/
def DetailFits (s : State) (f : FaultRecord) : Prop :=
  match f.kind with
  | .decodeBadOpcode | .decodeTruncated | .divideByZero => f.detail = .none
  | .decodeInvalidOperand => False
  | .destNotRegister => ∃ w : Word, f.detail = .operandWord w ∧ w.toNat ≤ 32767
  | .regrefAsData => ∃ a : Val, f.detail = .cell a (s.readMem a) ∧ 32768 ≤ (s.readMem a).toNat
  | .addressBounds => f.detail = .address 32768 ∧ s.pc.toNat = 32766
  | .stackOverflow => f.detail = .depth s.stack.length ∧ s.config.stackCapacity = some s.stack.length

/-- The invariant of the machine at every step boundary. The 15-bit bounds on registers and stack entries (R15, R24) are
in the types. -/
structure Inv (s : State) : Prop where
  /-- Memory is in canonical form, all of it inside 0..32767 (R22). -/
  memForm : s.mem.wf = true
  /-- Every cell holds 0..32775 (R23). -/
  cells : ∀ a : Val, (s.readMem a).toNat ≤ maxValidWord
  /-- `pc` is 0..32768 (R16). -/
  pcRange : s.pc.toNat ≤ memWords
  /-- The stack is within STACK_CAPACITY (R7, R24). -/
  depth : ∀ n, s.config.stackCapacity = some n → s.stack.length ≤ n
  /-- An empty-stack halt has an empty stack (R92). -/
  emptyHalt : s.status = .halted .popEmpty ∨ s.status = .halted .retEmpty → s.stack = []
  /-- A fault record names the instruction `pc` still points at, and its value fits its kind (R20, R93, R95). -/
  record : ∀ f, s.status = .error f → f.addr = s.pc ∧ f.word = wordAtPc s ∧ DetailFits s f

/-- The state with more bytes emitted before all those that wait for the host. -/
def State.withEarlierOutput (s : State) (before : List Byte) : State := { s with output := before ++ s.output }

/-- The status is a stop by a fault. -/
def Faulted (s : State) : Prop := ∃ f, s.status = .error f

/-- The states the host can bring the core to: a successful load, then any list of actions (R102, R114). -/
def Reachable (s : State) : Prop :=
  ∃ cfg bytes s₀ actions, load cfg bytes = .ok s₀ ∧ s = List.foldl hostAct s₀ actions

end Sys2Proof.Machine
end

