-- ==== Sys2Proof/Certificates/Slice0/Obligations.lean ====
section
/-! DEFINITION. The statements about this machine, each from a rule of the spec. A docstring names the rule, and for a
clause that the spec marks as its own decision (D<n>, 92_eei_decisions.md) or that rests on a log entry, it says so. -/

open Sys2Proof Sys2Proof.Machine

/-! ### The value model, the decoder and the encoder -/

/-- R42, for every 16-bit word: a literal keeps its number, a register reference names word − 32768, any other word
decodes to nothing. -/
def Obligations.WordsDecodeByClass : Prop :=
  ∀ w : Word,
    (w.toNat ≤ 32767 → ∃ n : Val, decodeValue w = some (.lit n) ∧ n.toNat = w.toNat) ∧
    (32768 ≤ w.toNat → w.toNat ≤ 32775 → ∃ r : RegNum, decodeValue w = some (.reg r) ∧ r.val = w.toNat - 32768) ∧
    (32776 ≤ w.toNat → decodeValue w = none)

/-- R45: the arity partition of the 22 opcodes. The code of each name is the spec's own pairing (R47, D1, log entry 7). -/
def Obligations.ArityIsFixedByOpcode : Prop :=
  (∀ w : Word, w.toNat ∈ [0, 18, 21] → arityOf w = 0) ∧
  (∀ w : Word, w.toNat ∈ [2, 3, 6, 17, 19, 20] → arityOf w = 1) ∧
  (∀ w : Word, w.toNat ∈ [1, 7, 8, 14, 15, 16] → arityOf w = 2) ∧
  (∀ w : Word, w.toNat ∈ [4, 5, 9, 10, 11, 12, 13] → arityOf w = 3) ∧
  (∀ i : Instr, i.length = 1 + arityOf i.code)

/-- Words written out from the encodings of R43 and R47 (and the examples of R52 and 95_test_vectors.md) decode to the
instructions they stand for. -/
def Obligations.WrittenWordsDecode : Prop :=
  decode [0] = .ok (.halt, []) ∧
  decode [1, 32768, 1234, 7] = .ok (.set (.reg 0) (.lit 1234), [7]) ∧
  decode [2, 32771] = .ok (.push (.reg 3), []) ∧
  decode [7, 32768, 3] = .ok (.jt (.reg 0) (.lit 3), []) ∧
  decode [9, 32768, 32769, 4, 19, 32768] = .ok (.add (.reg 0) (.reg 1) (.lit 4), [19, 32768]) ∧
  decode [14, 32775, 32767] = .ok (.not (.reg 7) (.lit 32767), []) ∧
  decode [16, 100, 32769] = .ok (.wmem (.lit 100) (.reg 1), []) ∧
  decode [19, 65] = .ok (.out (.lit 65), []) ∧
  decode [22] = .error (.badOpcode 22) ∧
  decode [32768] = .error (.badOpcode 32768) ∧
  decode [10, 32768, 1] = .error (.truncated 10) ∧
  decode [15, 32768, 32776] = .error (.invalidOperand 15 32776)

/-- Decoding the words of any instruction, with any words after them, gives the instruction and leaves the rest: no bit
of an encoding is dropped (R42, R43, R45, R47). It holds for literal destinations too, which decode and then fault (R49). -/
def Obligations.DecodeOfEncode : Prop :=
  ∀ (i : Instr) (rest : List Word), decode (encode i ++ rest) = .ok (i, rest)

/-- What decodes is the encoding of the instruction read: two word sequences never mean one instruction, and no word is
read twice or skipped (R43, R48, R58). -/
def Obligations.EncodeOfDecode : Prop :=
  ∀ (ws : List Word) (i : Instr) (rest : List Word), decode ws = .ok (i, rest) → ws = encode i ++ rest

/-! ### The step -/

/-- A running core whose fetched words decode runs exactly that instruction: the step adds nothing around `exec`
(R54, R58). -/
def Obligations.StepRunsTheDecodedInstruction : Prop :=
  ∀ (s : State) (i : Instr) (rest : List Word),
    s.status = .running → decode s.fetch = .ok (i, rest) → step s = exec i s

/-- When the words of an instruction stand in memory from `pc` upward, all of them inside memory, a running core runs
that instruction (R43, R50, R54, R58). -/
def Obligations.WordsAtPcAreExecuted : Prop :=
  ∀ (s : State) (i : Instr),
    s.status = .running → s.pc.toNat + i.length ≤ 32768 →
    (∀ k, k < i.length → (encode i)[k]? = some (s.mem.read (s.pc.toNat + k))) → step s = exec i s

/-- The faults of the fetch in the order of checks 1 to 4 of R96, each with its record (R51, R93). The order is the
spec's own decision D9; the bounds are D4, a register-reference opcode word is D18, an operand word above 32775 is D19. -/
def Obligations.FetchFaultsInOrder : Prop :=
  ∀ s : State, s.status = .running →
    (s.pc.toNat > 32767 → ∃ t, step s = .next t ∧ Raised s t .decodeTruncated none .none) ∧
    (s.pc.toNat ≤ 32767 → (s.mem.read s.pc.toNat).toNat > 21 →
      ∃ t, step s = .next t ∧ Raised s t .decodeBadOpcode (some (s.mem.read s.pc.toNat)) .none) ∧
    (s.pc.toNat ≤ 32767 → (s.mem.read s.pc.toNat).toNat ≤ 21 →
      s.pc.toNat + arityOf (s.mem.read s.pc.toNat) > 32767 →
      ∃ t, step s = .next t ∧ Raised s t .decodeTruncated (some (s.mem.read s.pc.toNat)) .none) ∧
    (s.pc.toNat ≤ 32767 → (s.mem.read s.pc.toNat).toNat ≤ 21 →
      s.pc.toNat + arityOf (s.mem.read s.pc.toNat) ≤ 32767 →
      ∀ k, 1 ≤ k → k ≤ arityOf (s.mem.read s.pc.toNat) →
        (∀ j, 1 ≤ j → j < k → (s.mem.read (s.pc.toNat + j)).toNat ≤ 32775) →
        (s.mem.read (s.pc.toNat + k)).toNat > 32775 →
        ∃ t, step s = .next t ∧ Raised s t .decodeInvalidOperand (some (s.mem.read s.pc.toNat))
          (.operandWord (s.mem.read (s.pc.toNat + k))))

/-- R49 and check 5 of R96: a literal in a D operand faults with the instruction's own code and its operand word,
whatever the state is (an empty stack, a divisor of 0, no input); and no other instruction raises that fault.
That it comes before the instruction's other checks is the spec's own decision D9. -/
def Obligations.LiteralDestinationsFault : Prop :=
  (∀ (i : Instr) (s : State), i.wellFormed = false →
    ∃ t w, exec i s = .next t ∧ (encode i)[1]? = some w ∧
      Raised s t .destNotRegister (some i.code) (.operandWord w)) ∧
  (∀ (i : Instr) (s t : State) (f : FaultRecord), i.wellFormed = true → s.status = .running →
    exec i s = .next t → t.status = .error f → f.kind ≠ .destNotRegister)

/-! ### Control flow -/

/-- R66: `halt`. That `pc` advances past it is the spec's own decision D7 (log entry 8). -/
def Obligations.HaltStops : Prop :=
  (∀ s : State, ∃ t, exec .halt s = .next t ∧ Stopped s t .haltInstr 1) ∧ encode .halt = [0]

/-- R67: `jmp a` goes to the resolved a, for a literal and for a register. -/
def Obligations.JmpGoesToTarget : Prop :=
  (∀ (s : State) (a : Value), ∃ t, exec (.jmp a) s = .next t ∧ MovedTo s t s.stack (s.resolve a).toWord) ∧
  (∀ a : Value, encode (.jmp a) = [6, encodeValue a])

/-- R68: `jt a b` jumps to b exactly when a is not 0, and else advances by 3; it never writes a register. -/
def Obligations.JtJumpsOnNonzero : Prop :=
  (∀ (s : State) (a b : Value), ∃ t, exec (.jt a b) s = .next t ∧
    MovedTo s t s.stack (if (s.resolve a).toNat = 0 then s.pc + 3 else (s.resolve b).toWord)) ∧
  (∀ a b : Value, encode (.jt a b) = [7, encodeValue a, encodeValue b])

/-- R69: `jf a b` jumps to b exactly when a is 0, and else advances by 3; it never writes a register. -/
def Obligations.JfJumpsOnZero : Prop :=
  (∀ (s : State) (a b : Value), ∃ t, exec (.jf a b) s = .next t ∧
    MovedTo s t s.stack (if (s.resolve a).toNat = 0 then (s.resolve b).toWord else s.pc + 3)) ∧
  (∀ a b : Value, encode (.jf a b) = [8, encodeValue a, encodeValue b])

/-- R70: `call a` pushes the address after it and goes to the resolved a. At 32766 it faults with the address 32768
(D5), and on a full stack with the depth (D8); both leave everything else as it was. The address check comes first (D9). -/
def Obligations.CallPushesReturnAddress : Prop :=
  (∀ (s : State) (a : Value), s.pc.toNat + 2 ≤ 32767 → s.config.stackCapacity ≠ some s.stack.length →
    ∃ t v, exec (.call a) s = .next t ∧ v.toNat = s.pc.toNat + 2 ∧ MovedTo s t (v :: s.stack) (s.resolve a).toWord) ∧
  (∀ (s : State) (a : Value), s.pc.toNat + 2 > 32767 →
    ∃ t, exec (.call a) s = .next t ∧ Raised s t .addressBounds (some 17) (.address (s.pc.toNat + 2))) ∧
  (∀ (s : State) (a : Value), s.pc.toNat + 2 ≤ 32767 → s.config.stackCapacity = some s.stack.length →
    ∃ t, exec (.call a) s = .next t ∧ Raised s t .stackOverflow (some 17) (.depth s.stack.length)) ∧
  (∀ a : Value, encode (.call a) = [17, encodeValue a])

/-- R71: `ret` pops the top into `pc`; on an empty stack it is a designed halt. That `pc` advances past that halt is the
spec's own decision D7 (log entry 8). -/
def Obligations.RetPopsPc : Prop :=
  (∀ (s : State) (v : Val) (rest : List Val), s.stack = v :: rest →
    ∃ t, exec .ret s = .next t ∧ MovedTo s t rest v.toWord) ∧
  (∀ s : State, s.stack = [] → ∃ t, exec .ret s = .next t ∧ Stopped s t .retEmpty 1) ∧
  encode .ret = [18]

/-- R72: `noop` only advances `pc` by 1. -/
def Obligations.NoopOnlyAdvances : Prop :=
  (∀ s : State, ∃ t, exec .noop s = .next t ∧ MovedTo s t s.stack (s.pc + 1)) ∧ encode .noop = [21]

/-! ### Register and memory transfer -/

/-- R73: `set a b` writes the resolved b into the register a names; a literal a faults. -/
def Obligations.SetWritesValue : Prop :=
  (∀ (s : State) (r : RegNum) (b : Value), ∃ t, exec (.set (.reg r) b) s = .next t ∧
    WroteReg s t r (s.resolve b).toNat 3) ∧
  (∀ (s : State) (n : Val) (b : Value), ∃ t, exec (.set (.lit n) b) s = .next t ∧ RaisedDest s t 1 n) ∧
  (∀ a b : Value, encode (.set a b) = [1, encodeValue a, encodeValue b])

/-- R74: `rmem a b` reads the cell at the resolved b into the register a names. A cell holding a word above 32767 is not
data and faults with its address and word, which is the spec's own decision D2; a literal a faults first (D9). -/
def Obligations.RmemReadsCell : Prop :=
  (∀ (s : State) (r : RegNum) (b : Value), (s.readMem (s.resolve b)).toNat ≤ 32767 →
    ∃ t, exec (.rmem (.reg r) b) s = .next t ∧ WroteReg s t r (s.readMem (s.resolve b)).toNat 3) ∧
  (∀ (s : State) (r : RegNum) (b : Value), (s.readMem (s.resolve b)).toNat > 32767 →
    ∃ t, exec (.rmem (.reg r) b) s = .next t ∧
      Raised s t .regrefAsData (some 15) (.cell (s.resolve b) (s.readMem (s.resolve b)))) ∧
  (∀ (s : State) (n : Val) (b : Value), ∃ t, exec (.rmem (.lit n) b) s = .next t ∧ RaisedDest s t 15 n) ∧
  (∀ a b : Value, encode (.rmem a b) = [15, encodeValue a, encodeValue b])

/-- R75: `wmem a b` stores the resolved b in the cell at the resolved a, for every form of a and b, and changes no other
cell and no register. -/
def Obligations.WmemStoresValue : Prop :=
  (∀ (s : State) (a b : Value), ∃ t, exec (.wmem a b) s = .next t ∧
    WroteMem s t (s.resolve a) (s.resolve b).toNat 3) ∧
  (∀ a b : Value, encode (.wmem a b) = [16, encodeValue a, encodeValue b])

/-! ### Stack -/

/-- R76: `push a` puts the resolved a on top. On a stack at STACK_CAPACITY it faults with the depth, the spec's own
decision D8. -/
def Obligations.PushPutsOnTop : Prop :=
  (∀ (s : State) (a : Value), s.config.stackCapacity ≠ some s.stack.length →
    ∃ t, exec (.push a) s = .next t ∧ MovedTo s t (s.resolve a :: s.stack) (s.pc + 2)) ∧
  (∀ (s : State) (a : Value), s.config.stackCapacity = some s.stack.length →
    ∃ t, exec (.push a) s = .next t ∧ Raised s t .stackOverflow (some 2) (.depth s.stack.length)) ∧
  (∀ a : Value, encode (.push a) = [2, encodeValue a])

/-- R77: `pop a` moves the top into the register a names; on an empty stack it is a designed halt that writes no
register. A literal a faults first (D9); that `pc` advances past the halt is D7 (log entry 8). -/
def Obligations.PopTakesTop : Prop :=
  (∀ (s : State) (r : RegNum) (v : Val) (rest : List Val), s.stack = v :: rest →
    ∃ t, exec (.pop (.reg r)) s = .next t ∧ t.readReg r = v ∧ OtherRegsKept r s t ∧ MemKept s t ∧ t.stack = rest ∧
      t.pc = s.pc + 2 ∧ t.status = s.status ∧ StreamsKept s t) ∧
  (∀ (s : State) (r : RegNum), s.stack = [] → ∃ t, exec (.pop (.reg r)) s = .next t ∧ Stopped s t .popEmpty 2) ∧
  (∀ (s : State) (n : Val), ∃ t, exec (.pop (.lit n)) s = .next t ∧ RaisedDest s t 3 n) ∧
  (∀ a : Value, encode (.pop a) = [3, encodeValue a])

/-! ### Arithmetic, logic and comparison -/

/-- R79: `eq a b c`. -/
def Obligations.EqComparesValues : Prop :=
  (∀ (s : State) (r : RegNum) (b c : Value), ∃ t, exec (.eq (.reg r) b c) s = .next t ∧
    WroteReg s t r (if (s.resolve b).toNat = (s.resolve c).toNat then 1 else 0) 4) ∧
  (∀ (s : State) (n : Val) (b c : Value), ∃ t, exec (.eq (.lit n) b c) s = .next t ∧ RaisedDest s t 4 n) ∧
  (∀ a b c : Value, encode (.eq a b c) = [4, encodeValue a, encodeValue b, encodeValue c])

/-- R80: `gt a b c`, strictly greater as unsigned numbers, which the spec derives from R78. -/
def Obligations.GtComparesUnsigned : Prop :=
  (∀ (s : State) (r : RegNum) (b c : Value), ∃ t, exec (.gt (.reg r) b c) s = .next t ∧
    WroteReg s t r (if (s.resolve b).toNat > (s.resolve c).toNat then 1 else 0) 4) ∧
  (∀ (s : State) (n : Val) (b c : Value), ∃ t, exec (.gt (.lit n) b c) s = .next t ∧ RaisedDest s t 5 n) ∧
  (∀ a b c : Value, encode (.gt a b c) = [5, encodeValue a, encodeValue b, encodeValue c])

/-- R81: `add a b c` writes the sum modulo 32768 into the register a names or, for a literal a, into the memory cell at
that address. -/
def Obligations.AddWritesSum : Prop :=
  (∀ (s : State) (r : RegNum) (b c : Value), ∃ t, exec (.add (.reg r) b c) s = .next t ∧
    WroteReg s t r (((s.resolve b).toNat + (s.resolve c).toNat) % 32768) 4) ∧
  (∀ (s : State) (n : Val) (b c : Value), ∃ t, exec (.add (.lit n) b c) s = .next t ∧
    WroteMem s t n (((s.resolve b).toNat + (s.resolve c).toNat) % 32768) 4) ∧
  (∀ a b c : Value, encode (.add a b c) = [9, encodeValue a, encodeValue b, encodeValue c])

/-- R82: `mult a b c` writes the exact product modulo 32768. -/
def Obligations.MultWritesProduct : Prop :=
  (∀ (s : State) (r : RegNum) (b c : Value), ∃ t, exec (.mult (.reg r) b c) s = .next t ∧
    WroteReg s t r (((s.resolve b).toNat * (s.resolve c).toNat) % 32768) 4) ∧
  (∀ (s : State) (n : Val) (b c : Value), ∃ t, exec (.mult (.lit n) b c) s = .next t ∧ RaisedDest s t 10 n) ∧
  (∀ a b c : Value, encode (.mult a b c) = [10, encodeValue a, encodeValue b, encodeValue c])

/-- R83: `mod a b c` writes the remainder; a divisor of 0 faults, which is the spec's own decision D6; a literal a faults
first (D9). -/
def Obligations.ModWritesRemainder : Prop :=
  (∀ (s : State) (r : RegNum) (b c : Value), (s.resolve c).toNat ≠ 0 → ∃ t, exec (.mod (.reg r) b c) s = .next t ∧
    WroteReg s t r ((s.resolve b).toNat % (s.resolve c).toNat) 4) ∧
  (∀ (s : State) (r : RegNum) (b c : Value), (s.resolve c).toNat = 0 →
    ∃ t, exec (.mod (.reg r) b c) s = .next t ∧ Raised s t .divideByZero (some 11) .none) ∧
  (∀ (s : State) (n : Val) (b c : Value), ∃ t, exec (.mod (.lit n) b c) s = .next t ∧ RaisedDest s t 11 n) ∧
  (∀ a b c : Value, encode (.mod a b c) = [11, encodeValue a, encodeValue b, encodeValue c])

/-- R84: `and a b c`. -/
def Obligations.AndWritesBits : Prop :=
  (∀ (s : State) (r : RegNum) (b c : Value), ∃ t, exec (.and (.reg r) b c) s = .next t ∧
    WroteReg s t r ((s.resolve b).toNat &&& (s.resolve c).toNat) 4) ∧
  (∀ (s : State) (n : Val) (b c : Value), ∃ t, exec (.and (.lit n) b c) s = .next t ∧ RaisedDest s t 12 n) ∧
  (∀ a b c : Value, encode (.and a b c) = [12, encodeValue a, encodeValue b, encodeValue c])

/-- R85: `or a b c`. -/
def Obligations.OrWritesBits : Prop :=
  (∀ (s : State) (r : RegNum) (b c : Value), ∃ t, exec (.or (.reg r) b c) s = .next t ∧
    WroteReg s t r ((s.resolve b).toNat ||| (s.resolve c).toNat) 4) ∧
  (∀ (s : State) (n : Val) (b c : Value), ∃ t, exec (.or (.lit n) b c) s = .next t ∧ RaisedDest s t 13 n) ∧
  (∀ a b c : Value, encode (.or a b c) = [13, encodeValue a, encodeValue b, encodeValue c])

/-- R86: `not a b` writes the exclusive or with 0x7FFF, which is 32767 − B. -/
def Obligations.NotComplementsBits : Prop :=
  (∀ (s : State) (r : RegNum) (b : Value), ∃ t, exec (.not (.reg r) b) s = .next t ∧
    WroteReg s t r ((s.resolve b).toNat ^^^ 0x7FFF) 3 ∧ (t.readReg r).toNat = 32767 - (s.resolve b).toNat) ∧
  (∀ (s : State) (n : Val) (b : Value), ∃ t, exec (.not (.lit n) b) s = .next t ∧ RaisedDest s t 14 n) ∧
  (∀ a b : Value, encode (.not a b) = [14, encodeValue a, encodeValue b])

/-! ### Input and output -/

/-- R90: `out a` emits the resolved a modulo 256, after the bytes emitted before, and changes nothing else but `pc`. -/
def Obligations.OutEmitsLowByte : Prop :=
  (∀ (s : State) (a : Value), ∃ t b, exec (.out a) s = .next t ∧ b.toNat = (s.resolve a).toNat % 256 ∧
    t.output = s.output ++ [b] ∧ RegsKept s t ∧ MemKept s t ∧ t.stack = s.stack ∧ t.pc = s.pc + 2 ∧
    t.status = s.status ∧ t.input = s.input ∧ t.config = s.config) ∧
  (∀ a : Value, encode (.out a) = [19, encodeValue a])

/-- R91: `in a` moves the next delivered byte into the register a names; with none delivered it has no transition (R89,
here the outcome `inputHold`, log entry 5); a literal a faults and takes no byte, which is the spec's own decision D13. -/
def Obligations.InTakesNextByte : Prop :=
  (∀ (s : State) (r : RegNum) (b : Byte) (rest : List Byte), s.input = b :: rest →
    ∃ t, exec (.in_ (.reg r)) s = .next t ∧ (t.readReg r).toNat = b.toNat ∧ OtherRegsKept r s t ∧ MemKept s t ∧
      t.stack = s.stack ∧ t.pc = s.pc + 2 ∧ t.status = s.status ∧ t.input = rest ∧ t.output = s.output ∧
      t.config = s.config) ∧
  (∀ (s : State) (r : RegNum), s.input = [] → exec (.in_ (.reg r)) s = .fault .inputHold) ∧
  (∀ (s : State) (n : Val), ∃ t, exec (.in_ (.lit n)) s = .next t ∧ RaisedDest s t 20 n) ∧
  (∀ a : Value, encode (.in_ a) = [20, encodeValue a])

/-! ### Whole-machine rules -/

/-- R14: no instruction writes a register its destination operand does not name; the host's write changes only the
register it names. -/
def Obligations.OnlyNamedRegistersWritten : Prop :=
  (∀ (i : Instr) (s t : State) (q : RegNum), exec i s = .next t → t.readReg q ≠ s.readReg q → destReg i = some q) ∧
  (∀ (s t : State) (index v : Nat) (q : RegNum), hostWriteReg index v s = .ok t → t.readReg q ≠ s.readReg q →
    q.val = index)

/-- R14: a register that no operand names does not influence an instruction: with another value in it, the instruction
does the same, the register apart. -/
def Obligations.UnnamedRegistersNotRead : Prop :=
  ∀ (i : Instr) (s t : State) (q : RegNum) (v : Val), Value.reg q ∉ i.operands → exec i s = .next t →
    exec i (s.writeReg q v) = .next (t.writeReg q v)

/-- R30: only `wmem`, at its resolved a, and `add` with a literal destination, at that address, change memory, and what
they store is 0..32767. -/
def Obligations.OnlyStoresChangeMemory : Prop :=
  ∀ (i : Instr) (s t : State) (a : Val), exec i s = .next t → t.readMem a ≠ s.readMem a →
    storeAddress s i = some a ∧ (t.readMem a).toNat ≤ 32767

/-- R24: only `push` and `call` lengthen the stack, by one value on top, and only `pop` and `ret` shorten it, by the top. -/
def Obligations.StackChangesOnlyAtTop : Prop :=
  ∀ (i : Instr) (s t : State), exec i s = .next t →
    t.stack = s.stack ∨
    (∃ a, i = .push a ∧ t.stack = s.resolve a :: s.stack) ∨
    (∃ a v, i = .call a ∧ v.toNat = s.pc.toNat + 2 ∧ t.stack = v :: s.stack) ∨
    (∃ r v, i = .pop (.reg r) ∧ s.stack = v :: t.stack ∧ t.readReg r = v) ∨
    (∃ v, i = .ret ∧ s.stack = v :: t.stack ∧ t.pc = v.toWord)

/-- R64 and R65: after a fault `pc` stays; otherwise it advances by the instruction's length, unless the instruction is
one of jmp, jt, jf, call and ret and goes on running at a 15-bit target. That `pc` advances after a designed halt is the
spec's own decision D7 (log entry 8). -/
def Obligations.RouterChoosesNextPc : Prop :=
  ∀ (i : Instr) (s t : State), s.status = .running → exec i s = .next t →
    (Faulted t ∧ t.pc = s.pc) ∨
    (¬ Faulted t ∧ t.pc = s.pc + BitVec.ofNat 16 i.length) ∨
    (maySetPc i = true ∧ t.status = .running ∧ ∃ v : Val, t.pc = v.toWord)

/-- R87 and R88: only `out` emits, one byte after those before it, and only `in` takes, the oldest delivered byte. -/
def Obligations.PortsMoveOneByteInOrder : Prop :=
  ∀ (i : Instr) (s t : State), exec i s = .next t →
    (t.output = s.output ∨
      ∃ a b, i = .out a ∧ b.toNat = (s.resolve a).toNat % 256 ∧ t.output = s.output ++ [b]) ∧
    (t.input = s.input ∨
      ∃ r b, i = .in_ (.reg r) ∧ s.input = b :: t.input ∧ (t.readReg r).toNat = b.toNat)

/-- The core never reads what it emitted (R12, R87): a step after any earlier output does the same and appends the same. -/
def Obligations.OutputIsNeverRead : Prop :=
  ∀ (s t : State) (before : List Byte), step s = .next t →
    step (s.withEarlierOutput before) = .next (t.withEarlierOutput before)

/-- Bytes delivered later do not change what a step does with the bytes already there (R88). -/
def Obligations.LaterInputIsNotSeen : Prop :=
  ∀ (s t : State) (later : List Byte), step s = .next t →
    step (hostDeliver later s) = .next (hostDeliver later t)

/-- R89: the only step without a transition is `in` to a register with no byte delivered, and a delivered byte lifts it.
That having no transition is the outcome `fault inputHold` is the model's choice, log entry 5. The model refuses nothing. -/
def Obligations.OnlyInHolds : Prop :=
  (∀ (s : State) (f : Fault), step s = .fault f →
    s.status = .running ∧ s.input = [] ∧ ∃ r rest, decode s.fetch = .ok (.in_ (.reg r), rest)) ∧
  (∀ (s : State) (r : RegNum) (rest : List Word), s.status = .running → s.input = [] →
    decode s.fetch = .ok (.in_ (.reg r), rest) →
    step s = .fault .inputHold ∧
    ∀ (b : Byte) (bs : List Byte), ∃ t, step (hostDeliver (b :: bs) s) = .next t ∧
      (t.readReg r).toNat = b.toNat ∧ t.input = bs ∧ t.pc = s.pc + 2) ∧
  (∀ (s : State) (m : Refusal), step s ≠ .refused m)

/-- R95: when a running core's step ends in a fault, the state is the one before it but for the status, and the record
names `pc` and the opcode word there. That nothing else changes is the spec's own decision D10. -/
def Obligations.FaultsArePrecise : Prop :=
  ∀ (s t : State) (f : FaultRecord), s.status = .running → step s = .next t → t.status = .error f →
    t = { s with status := .error f } ∧ f.addr = s.pc ∧ f.word = wordAtPc s

/-- R93, column "raised by" and column "detail": which instruction raises each of the faults 4 to 8, in which state, and
with which value; and the numeric codes, which are the spec's own decision D11. -/
def Obligations.FaultsHaveTheirCauses : Prop :=
  (∀ (s t : State) (i : Instr) (rest : List Word) (f : FaultRecord), s.status = .running →
    decode s.fetch = .ok (i, rest) → step s = .next t → t.status = .error f →
    (f.kind = .destNotRegister ∧ ∃ n : Val, i.destOperand = some (.lit n) ∧ f.detail = .operandWord n.toWord) ∨
    (f.kind = .regrefAsData ∧ ∃ r b, i = .rmem (.reg r) b ∧ 32768 ≤ (s.readMem (s.resolve b)).toNat ∧
      f.detail = .cell (s.resolve b) (s.readMem (s.resolve b))) ∨
    (f.kind = .divideByZero ∧ (∃ r b c, i = .mod (.reg r) b c ∧ s.resolve c = 0) ∧ f.detail = .none) ∨
    (f.kind = .addressBounds ∧ (∃ a, i = .call a) ∧ s.pc.toNat = 32766 ∧ f.detail = .address 32768) ∨
    (f.kind = .stackOverflow ∧ (∃ a, i = .push a ∨ i = .call a) ∧ s.config.stackCapacity = some s.stack.length ∧
      f.detail = .depth s.stack.length)) ∧
  [FaultKind.decodeBadOpcode, .decodeTruncated, .decodeInvalidOperand, .destNotRegister, .regrefAsData, .divideByZero,
    .addressBounds, .stackOverflow].map FaultKind.code = [1, 2, 3, 4, 5, 6, 7, 8]

/-- R92: the designed halts and their only causes; the numeric codes are the spec's own decision D11. -/
def Obligations.HaltsHaveTheirCauses : Prop :=
  (∀ (s t : State) (reason : HaltReason), s.status = .running → step s = .next t → t.status = .halted reason →
    ∃ i rest, decode s.fetch = .ok (i, rest) ∧
      ((reason = .haltInstr ∧ i = .halt) ∨ (reason = .popEmpty ∧ s.stack = [] ∧ ∃ r, i = .pop (.reg r)) ∨
        (reason = .retEmpty ∧ s.stack = [] ∧ i = .ret))) ∧
  [HaltReason.haltInstr, .popEmpty, .retEmpty].map HaltReason.code = [0, 1, 2]

/-- R56 and R99: a step of a stopped core changes nothing, and no list of host actions makes it run again. -/
def Obligations.StoppedCoreStaysStopped : Prop :=
  (∀ s : State, s.status ≠ .running → step s = .next s) ∧
  (∀ (actions : List HostAction) (s : State), s.status ≠ .running →
    (List.foldl hostAct s actions).status = s.status)

/-- R39: after a store to the address the core goes to next, that fetch reads the stored word. -/
def Obligations.NextFetchSeesStore : Prop :=
  (∀ (s t : State) (a b : Value), exec (.wmem a b) s = .next t → t.pc = (s.resolve a).toWord →
    t.fetch.head? = some (s.resolve b).toWord) ∧
  (∀ (s t : State) (n : Val) (b c : Value), exec (.add (.lit n) b c) s = .next t → t.pc = n.toWord →
    ∃ w : Word, t.fetch.head? = some w ∧ w.toNat = ((s.resolve b).toNat + (s.resolve c).toNat) % 32768)

/-- R70, R71, R76, R77 together (the source's §8): `ret` right after `call` comes back behind the `call`, and `pop` right
after `push` gives the pushed value; both leave the stack as it was. -/
def Obligations.StackRoundTrips : Prop :=
  (∀ (s : State) (a : Value), s.pc.toNat + 2 ≤ 32767 → s.config.stackCapacity ≠ some s.stack.length →
    ∃ t u, exec (.call a) s = .next t ∧ exec .ret t = .next u ∧ MovedTo s u s.stack (s.pc + 2)) ∧
  (∀ (s : State) (a : Value) (r : RegNum), s.config.stackCapacity ≠ some s.stack.length →
    ∃ t u, exec (.push a) s = .next t ∧ exec (.pop (.reg r)) t = .next u ∧
      WroteReg s u r (s.resolve a).toNat 4)

/-- R53: the idioms. Adding 32767 subtracts 1, and `not` followed by adding 1 negates, both modulo 32768. -/
def Obligations.IdiomsSubtractAndNegate : Prop :=
  (∀ (s : State) (r : RegNum), ∃ t, exec (.add (.reg r) (.reg r) (.lit 32767)) s = .next t ∧
    (t.readReg r).toNat = ((s.readReg r).toNat + 32768 - 1) % 32768) ∧
  (∀ (s : State) (r : RegNum), ∃ t u, exec (.not (.reg r) (.reg r)) s = .next t ∧
    exec (.add (.reg r) (.reg r) (.lit 1)) t = .next u ∧
    (u.readReg r).toNat = (32768 - (s.readReg r).toNat) % 32768)

/-! ### Reset, load and the host -/

/-- R111: the reset state, whatever the configuration: every register 0, every cell 0, the stack empty, `pc` 0, running. -/
def Obligations.ResetIsAllZero : Prop :=
  ∀ s : State, s = State.reset ∨ (∃ cfg, s = State.resetWith cfg) →
    (∀ r : RegNum, s.readReg r = 0) ∧ (∀ a : Val, s.readMem a = 0) ∧ s.stack = [] ∧ s.pc = 0 ∧ s.status = .running

/-- R113: a successful load is reset with word i = bytes[2i] + 256 × bytes[2i+1] in cell i, and 0 in the cells the file
does not reach. That a cell keeps a register-reference word is the spec's own decision D2, that an empty file loads D24. -/
def Obligations.LoadPutsWordsFromZero : Prop :=
  ∀ (cfg : Config) (bytes : List Byte) (s : State), load cfg bytes = .ok s →
    bytes.length % 2 = 0 ∧ bytes.length ≤ 65536 ∧
    (∀ i, 2 * i < bytes.length →
      (s.mem.read i).toNat = (bytes.getD (2 * i) 0).toNat + 256 * (bytes.getD (2 * i + 1) 0).toNat) ∧
    (∀ i, bytes.length ≤ 2 * i → s.mem.read i = 0) ∧
    s = { State.resetWith cfg with mem := s.mem }

/-- R112: the load's checks in their order: an odd length, then more than 32768 words, then the first word above 32775
with the byte offset of its low byte; a file that passes them loads. The order and the offset are the spec's own decision
D21. -/
def Obligations.LoadChecksInOrder : Prop :=
  ∀ (cfg : Config) (bytes : List Byte),
    (bytes.length % 2 = 1 → load cfg bytes = .error (.oddLength bytes.length)) ∧
    (bytes.length % 2 = 0 → bytes.length > 65536 → load cfg bytes = .error (.tooManyWords (bytes.length / 2))) ∧
    (bytes.length % 2 = 0 → bytes.length ≤ 65536 →
      (∀ i, 2 * i < bytes.length →
        (∀ j, j < i → (bytes.getD (2 * j) 0).toNat + 256 * (bytes.getD (2 * j + 1) 0).toNat ≤ 32775) →
        (bytes.getD (2 * i) 0).toNat + 256 * (bytes.getD (2 * i + 1) 0).toNat > 32775 →
        ∃ w : Word, load cfg bytes = .error (.invalidWord (2 * i) w) ∧
          w.toNat = (bytes.getD (2 * i) 0).toNat + 256 * (bytes.getD (2 * i + 1) 0).toNat) ∧
      ((∀ j, 2 * j < bytes.length →
          (bytes.getD (2 * j) 0).toNat + 256 * (bytes.getD (2 * j + 1) 0).toNat ≤ 32775) →
        ∃ s, load cfg bytes = .ok s))

/-- R103: the host's register write is taken exactly for an index 0..7 and a value 0..32767, and then changes that
register and nothing else. The range checks are the spec's own decision D16. That a write out of range in both parts is
refused for its index (the second clause with a value above 32767) is the model's choice, log entry 9: R103 refuses it
and does not say which refusal is reported. -/
def Obligations.HostRegisterWriteIsChecked : Prop :=
  (∀ (s : State) (r : RegNum) (v : Nat), v ≤ 32767 → ∃ t, hostWriteReg r.val v s = .ok t ∧ WroteReg s t r v 0) ∧
  (∀ (s : State) (index v : Nat), index > 7 → hostWriteReg index v s = .error (.addressBounds index)) ∧
  (∀ (s : State) (index v : Nat), index ≤ 7 → v > 32767 → hostWriteReg index v s = .error (.valueTooLarge v))

/-- R57: the report of a completed step is Continue, Halted with its reason or Error with its record, exactly as the
status after it says; a held step has no state after it and so no report. -/
def Obligations.ReportFollowsStatus : Prop :=
  ∀ s : State,
    (s.report = .continues ↔ s.status = .running) ∧
    (∀ r, s.report = .halted r ↔ s.status = .halted r) ∧
    (∀ f, s.report = .error f ↔ s.status = .error f)

/-- R102, R104 and R105: `run_to_completion` is repeated `step`. It ends at a state that reports Halted or Error, or
stops where the host stops, after exactly k steps and still running, or holds at an `in`. The count k of steps the host
asks for is the model's way to say when it stops, log entry 10. -/
def Obligations.RunRepeatsStep : Prop :=
  ∀ (k : Nat) (s t : State),
    (runToCompletion k s = .ended t → t.report ≠ .continues ∧ ∃ j, j ≤ k ∧ Sys2Proof.core.run j s = .next t) ∧
    (runToCompletion k s = .stoppedByHost t → s.status = .running →
      t.status = .running ∧ Sys2Proof.core.run k s = .next t) ∧
    (runToCompletion k s = .holding t →
      step t = .fault .inputHold ∧ ∃ j, j < k ∧ Sys2Proof.core.run j s = .next t)

/-- R109: `dmp` covers memory from 0 to 32767 without gap or overlap: each line's words are those at its address, and
the lines together are all of memory. Where no instruction decodes one word is skipped, the model's choice, log entry 11. -/
def Obligations.DisassemblyCoversMemory : Prop :=
  ∀ s : State,
    (s.dmp.flatMap fun line => line.2.words) = s.mem.readWords 0 32768 ∧
    ∀ line ∈ s.dmp, line.2.words = s.mem.readWords line.1 line.2.words.length

/-! ### The invariant -/

/-- The invariant holds at reset, with any configuration (R111). -/
def Obligations.ResetMeetsInvariant : Prop :=
  Inv State.reset ∧ ∀ cfg : Config, Inv (State.resetWith cfg)

/-- A successful load gives a state that meets the invariant (R23, R112, R113). -/
def Obligations.LoadMeetsInvariant : Prop :=
  ∀ (cfg : Config) (bytes : List Byte) (s : State), load cfg bytes = .ok s → Inv s

/-- Every step from a state that meets the invariant leads to one that meets it (R16, R20, R22, R23, R24, R95): memory
keeps its form and its legal words, `pc` stays in 0..32768, the stack stays within its capacity, and a fault record stays
true of the state it stands in; a fetch never meets an operand word above 32775. -/
def Obligations.StepKeepsInvariant : Prop :=
  ∀ s t : State, Inv s → step s = .next t → Inv t

/-- Every action of the host keeps the invariant (R102, R103). -/
def Obligations.HostActionKeepsInvariant : Prop :=
  ∀ (s : State) (action : HostAction), Inv s → Inv (hostAct s action)

/-- Whatever program is loaded and whatever the host does, step by step, the invariant holds (R12 to R24, R102). -/
def Obligations.ReachableStatesMeetInvariant : Prop :=
  ∀ s : State, Reachable s → Inv s
end

