-- ==== Sys2Proof/Laws/Decode.lean ====
section
/-! SUPPORT. The laws of the value model: decoding and encoding one word, and the lengths of instructions. -/

namespace Sys2Proof

/-- Decoding the word of a value gives the value back (R42). -/
theorem decodeValue_encodeValue (v : Value) : decodeValue (encodeValue v) = some v := by
  cases v with
  | lit n =>
    have hlt := n.isLt
    have h : (encodeValue (.lit n)).toNat = n.toNat := by
      simp only [encodeValue, BitVec.toNat_setWidth]; omega
    unfold decodeValue
    rw [if_pos (by omega)]
    congr 2
    apply BitVec.eq_of_toNat_eq
    rw [BitVec.toNat_setWidth, h]
    omega
  | reg r => revert r; decide

/-- A word that decodes is the word of its value (R42). -/
theorem encodeValue_of_decodeValue {w : Word} {v : Value} (h : decodeValue w = some v) : encodeValue v = w := by
  unfold decodeValue at h
  split at h
  · rename_i hw
    cases h
    apply BitVec.eq_of_toNat_eq
    simp only [encodeValue, BitVec.toNat_setWidth]
    omega
  · split at h
    · rename_i hw hw'
      cases h
      apply BitVec.eq_of_toNat_eq
      simp only [encodeValue, BitVec.toNat_ofNat, Fin.val_ofNat]
      omega
    · cases h

/-- A word decodes exactly when it is at most 32775 (R41, R42). -/
theorem decodeValue_eq_none {w : Word} : decodeValue w = none ↔ maxValidWord < w.toNat := by
  unfold decodeValue maxValidWord
  split
  · exact ⟨fun e => (nomatch e), fun e => by omega⟩
  · split
    · exact ⟨fun e => (nomatch e), fun e => by omega⟩
    · exact ⟨fun _ => by omega, fun _ => rfl⟩

/-- The opcode map gives each instruction's code the format of its operands (R45, R47). -/
theorem arityOf_code (i : Instr) : arityOf i.code = i.operands.length := by
  cases i <;> rfl

/-- An opcode word names an opcode exactly when it is at most 21 (R44). -/
theorem opcodeMap_eq_none {w : Word} : opcodeMap w = none ↔ 21 < w.toNat := by
  constructor
  · intro h
    by_contra hle
    have hw : w.toNat ≤ 21 := by omega
    unfold opcodeMap at h
    interval_cases w.toNat <;> cases h
  · intro h
    unfold opcodeMap
    split <;> first | omega | rfl

end Sys2Proof
end

