-- ==== Sys2Proof/Laws/State.lean ====
section
/-! SUPPORT. What each named update of the state does to each field, and to each accessor. -/

namespace Sys2Proof.Machine

variable (s : State)

/-! ### writeReg -/

@[simp] theorem State.writeReg_regs (r : RegNum) (v : Val) : (s.writeReg r v).regs = s.regs.set r v := rfl
@[simp] theorem State.writeReg_mem (r : RegNum) (v : Val) : (s.writeReg r v).mem = s.mem := rfl
@[simp] theorem State.writeReg_stack (r : RegNum) (v : Val) : (s.writeReg r v).stack = s.stack := rfl
@[simp] theorem State.writeReg_pc (r : RegNum) (v : Val) : (s.writeReg r v).pc = s.pc := rfl
@[simp] theorem State.writeReg_status (r : RegNum) (v : Val) : (s.writeReg r v).status = s.status := rfl
@[simp] theorem State.writeReg_config (r : RegNum) (v : Val) : (s.writeReg r v).config = s.config := rfl
@[simp] theorem State.writeReg_input (r : RegNum) (v : Val) : (s.writeReg r v).input = s.input := rfl
@[simp] theorem State.writeReg_output (r : RegNum) (v : Val) : (s.writeReg r v).output = s.output := rfl

/-! ### writeMem -/

@[simp] theorem State.writeMem_regs (a v : Val) : (s.writeMem a v).regs = s.regs := rfl
@[simp] theorem State.writeMem_mem (a v : Val) : (s.writeMem a v).mem = s.mem.write a.toNat v.toWord := rfl
@[simp] theorem State.writeMem_stack (a v : Val) : (s.writeMem a v).stack = s.stack := rfl
@[simp] theorem State.writeMem_pc (a v : Val) : (s.writeMem a v).pc = s.pc := rfl
@[simp] theorem State.writeMem_status (a v : Val) : (s.writeMem a v).status = s.status := rfl
@[simp] theorem State.writeMem_config (a v : Val) : (s.writeMem a v).config = s.config := rfl
@[simp] theorem State.writeMem_input (a v : Val) : (s.writeMem a v).input = s.input := rfl
@[simp] theorem State.writeMem_output (a v : Val) : (s.writeMem a v).output = s.output := rfl

/-! ### push -/

@[simp] theorem State.push_regs (v : Val) : (s.push v).regs = s.regs := rfl
@[simp] theorem State.push_mem (v : Val) : (s.push v).mem = s.mem := rfl
@[simp] theorem State.push_stack (v : Val) : (s.push v).stack = v :: s.stack := rfl
@[simp] theorem State.push_pc (v : Val) : (s.push v).pc = s.pc := rfl
@[simp] theorem State.push_status (v : Val) : (s.push v).status = s.status := rfl
@[simp] theorem State.push_config (v : Val) : (s.push v).config = s.config := rfl
@[simp] theorem State.push_input (v : Val) : (s.push v).input = s.input := rfl
@[simp] theorem State.push_output (v : Val) : (s.push v).output = s.output := rfl

/-! ### emit -/

@[simp] theorem State.emit_regs (b : Byte) : (s.emit b).regs = s.regs := rfl
@[simp] theorem State.emit_mem (b : Byte) : (s.emit b).mem = s.mem := rfl
@[simp] theorem State.emit_stack (b : Byte) : (s.emit b).stack = s.stack := rfl
@[simp] theorem State.emit_pc (b : Byte) : (s.emit b).pc = s.pc := rfl
@[simp] theorem State.emit_status (b : Byte) : (s.emit b).status = s.status := rfl
@[simp] theorem State.emit_config (b : Byte) : (s.emit b).config = s.config := rfl
@[simp] theorem State.emit_input (b : Byte) : (s.emit b).input = s.input := rfl
@[simp] theorem State.emit_output (b : Byte) : (s.emit b).output = s.output ++ [b] := rfl

/-! ### route -/

@[simp] theorem State.route_regs (n : Nat) (j : Option Val) : (s.route n j).regs = s.regs := rfl
@[simp] theorem State.route_mem (n : Nat) (j : Option Val) : (s.route n j).mem = s.mem := rfl
@[simp] theorem State.route_stack (n : Nat) (j : Option Val) : (s.route n j).stack = s.stack := rfl
@[simp] theorem State.route_pc (n : Nat) (j : Option Val) : (s.route n j).pc = nextPc s.pc n j := rfl
@[simp] theorem State.route_status (n : Nat) (j : Option Val) : (s.route n j).status = s.status := rfl
@[simp] theorem State.route_config (n : Nat) (j : Option Val) : (s.route n j).config = s.config := rfl
@[simp] theorem State.route_input (n : Nat) (j : Option Val) : (s.route n j).input = s.input := rfl
@[simp] theorem State.route_output (n : Nat) (j : Option Val) : (s.route n j).output = s.output := rfl

/-! ### Accessors -/

@[simp] theorem State.readReg_writeReg_self (r : RegNum) (v : Val) : (s.writeReg r v).readReg r = v := by
  simp [State.readReg]

theorem State.readReg_writeReg_ne (r q : RegNum) (v : Val) (h : q ≠ r) : (s.writeReg r v).readReg q = s.readReg q := by
  have hv : r.val ≠ q.val := fun e => h (Fin.ext e.symm)
  simp [State.readReg, State.writeReg, Vector.getElem_set_ne, hv]

/-- A register after a register write: the new value where it was written, the old one elsewhere. -/
theorem State.readReg_writeReg (r q : RegNum) (v : Val) :
    (s.writeReg r v).readReg q = if q = r then v else s.readReg q := by
  by_cases h : q = r
  · subst h; simp
  · simp [h, State.readReg_writeReg_ne]

@[simp] theorem State.readMem_writeReg (r : RegNum) (v : Val) (a : Val) : (s.writeReg r v).readMem a = s.readMem a := rfl
@[simp] theorem State.readReg_writeMem (a v : Val) (q : RegNum) : (s.writeMem a v).readReg q = s.readReg q := rfl
@[simp] theorem State.resolve_writeMem (a v : Val) (x : Value) : (s.writeMem a v).resolve x = s.resolve x := by
  cases x <;> rfl
@[simp] theorem State.readReg_push (v : Val) (q : RegNum) : (s.push v).readReg q = s.readReg q := rfl
@[simp] theorem State.readMem_push (v : Val) (a : Val) : (s.push v).readMem a = s.readMem a := rfl
@[simp] theorem State.resolve_push (v : Val) (x : Value) : (s.push v).resolve x = s.resolve x := by
  cases x <;> rfl
@[simp] theorem State.readReg_emit (b : Byte) (q : RegNum) : (s.emit b).readReg q = s.readReg q := rfl
@[simp] theorem State.readMem_emit (b : Byte) (a : Val) : (s.emit b).readMem a = s.readMem a := rfl
@[simp] theorem State.resolve_emit (b : Byte) (x : Value) : (s.emit b).resolve x = s.resolve x := by
  cases x <;> rfl
@[simp] theorem State.readReg_route (n : Nat) (j : Option Val) (q : RegNum) : (s.route n j).readReg q = s.readReg q := rfl
@[simp] theorem State.readMem_route (n : Nat) (j : Option Val) (a : Val) : (s.route n j).readMem a = s.readMem a := rfl
@[simp] theorem State.resolve_route (n : Nat) (j : Option Val) (x : Value) : (s.route n j).resolve x = s.resolve x := by
  cases x <;> rfl

@[simp] theorem State.resolve_lit (n : Val) : s.resolve (.lit n) = n := rfl

@[simp] theorem State.resolve_reg (r : RegNum) : s.resolve (.reg r) = s.readReg r := rfl

@[simp] theorem State.readReg_set_mem (x : Memory) (q : RegNum) : State.readReg { s with mem := x } q = s.readReg q := rfl
@[simp] theorem State.readReg_set_stack (x : List Val) (q : RegNum) : State.readReg { s with stack := x } q = s.readReg q := rfl
@[simp] theorem State.readMem_set_stack (x : List Val) (a : Val) : State.readMem { s with stack := x } a = s.readMem a := rfl
@[simp] theorem State.readReg_set_pc (x : Word) (q : RegNum) : State.readReg { s with pc := x } q = s.readReg q := rfl
@[simp] theorem State.readMem_set_pc (x : Word) (a : Val) : State.readMem { s with pc := x } a = s.readMem a := rfl
@[simp] theorem State.readReg_set_status (x : Status) (q : RegNum) : State.readReg { s with status := x } q = s.readReg q := rfl
@[simp] theorem State.readMem_set_status (x : Status) (a : Val) : State.readMem { s with status := x } a = s.readMem a := rfl
@[simp] theorem State.readReg_set_input (x : List Byte) (q : RegNum) : State.readReg { s with input := x } q = s.readReg q := rfl
@[simp] theorem State.readMem_set_input (x : List Byte) (a : Val) : State.readMem { s with input := x } a = s.readMem a := rfl
@[simp] theorem State.readReg_set_output (x : List Byte) (q : RegNum) : State.readReg { s with output := x } q = s.readReg q := rfl
@[simp] theorem State.readMem_set_output (x : List Byte) (a : Val) : State.readMem { s with output := x } a = s.readMem a := rfl

/-! ### The router -/

@[simp] theorem nextPc_none (p : Word) (n : Nat) : nextPc p n none = p + BitVec.ofNat 16 n := rfl

@[simp] theorem nextPc_some (p : Word) (n : Nat) (t : Val) : nextPc p n (some t) = t.toWord := rfl

end Sys2Proof.Machine
end

