-- ==== Sys2Proof/Laws/Memory.lean ====
section
/-! SUPPORT. The laws of memory: a read after a write, and that every operation keeps the canonical form. -/

namespace Sys2Proof.Machine

/-! ### Read after write -/

theorem Memory.read_erase (m : Memory) (a b : Nat) :
    Memory.read (Memory.erase m a) b = if b = a then Memory.unlisted else Memory.read m b := by
  induction m with
  | nil => simp [Memory.erase, Memory.read]
  | cons e m ih =>
    obtain ⟨k, w⟩ := e
    by_cases hk : k = a
    · subst hk
      by_cases hb : b = k
      · subst hb; simpa [Memory.erase] using ih
      · simp [Memory.erase, Memory.read, ih, hb, Ne.symm hb]
    · by_cases hb : k = b
      · subst hb; simp [Memory.erase, Memory.read, hk]
      · simp [Memory.erase, Memory.read, hk, hb, ih]

theorem Memory.read_insert (m : Memory) (a b : Nat) (w : Word) (h : Memory.read m a = Memory.unlisted)
    (hk : ∀ e ∈ m, e.1 ≠ a) :
    Memory.read (Memory.insert m a w) b = if b = a then w else Memory.read m b := by
  induction m with
  | nil => simp [Memory.insert, Memory.read, eq_comm]
  | cons e m ih =>
    obtain ⟨k, x⟩ := e
    have hne : k ≠ a := hk (k, x) (by simp)
    have hm : ∀ e ∈ m, e.1 ≠ a := fun e he => hk e (by simp [he])
    have hr : Memory.read m a = Memory.unlisted := by simpa [Memory.read, hne] using h
    by_cases hlt : a < k
    · by_cases hb : b = a
      · simp [Memory.insert, Memory.read, hlt, hb]
      · simp [Memory.insert, Memory.read, hlt, hb, Ne.symm hb]
    · by_cases hb : k = b
      · subst hb; simp [Memory.insert, Memory.read, hlt, hne]
      · simp [Memory.insert, Memory.read, hlt, hb, ih hr hm]

theorem Memory.erase_ne (m : Memory) (a : Nat) : ∀ e ∈ Memory.erase m a, e.1 ≠ a := by
  induction m with
  | nil => simp [Memory.erase]
  | cons e m ih =>
    obtain ⟨k, w⟩ := e
    by_cases hk : k = a
    · simpa [Memory.erase, hk] using ih
    · intro e he
      simp only [Memory.erase, hk, if_false, List.mem_cons] at he
      rcases he with rfl | he
      · exact hk
      · exact ih e he

/-- Reading any cell after a write: the word written there, the old word elsewhere; on every list, canonical or not. -/
theorem Memory.read_write (m : Memory) (a b : Nat) (w : Word) :
    Memory.read (Memory.write m a w) b = if b = a then w else Memory.read m b := by
  unfold Memory.write
  by_cases hw : w = Memory.unlisted
  · rw [if_pos hw, Memory.read_erase, hw]
  · rw [if_neg hw, Memory.read_insert _ _ _ _ (by simp [Memory.read_erase]) (Memory.erase_ne m a)]
    by_cases hb : b = a <;> simp [hb, Memory.read_erase]

/-! ### The canonical form -/

theorem Memory.risingFrom_mono {m : Memory} {l k : Nat} (h : Memory.risingFrom l m = true) (hk : k ≤ l) :
    Memory.risingFrom k m = true := by
  cases m with
  | nil => rfl
  | cons e m => simp only [Memory.risingFrom, Bool.and_eq_true, decide_eq_true_eq] at h ⊢; exact ⟨by omega, h.2⟩

theorem Memory.risingFrom_erase {m : Memory} (a : Nat) {l : Nat} (h : Memory.risingFrom l m = true) :
    Memory.risingFrom l (Memory.erase m a) = true := by
  induction m generalizing l with
  | nil => exact h
  | cons e m ih =>
    obtain ⟨k, w⟩ := e
    simp only [Memory.risingFrom, Bool.and_eq_true, decide_eq_true_eq] at h
    by_cases hk : k = a
    · simp only [Memory.erase, hk, if_true]
      exact Memory.risingFrom_mono (ih h.2) (by omega)
    · simp only [Memory.erase, hk, if_false, Memory.risingFrom, Bool.and_eq_true, decide_eq_true_eq]
      exact ⟨h.1, ih h.2⟩

theorem Memory.risingFrom_insert {m : Memory} (a : Nat) (w : Word) {l : Nat} (h : Memory.risingFrom l m = true)
    (hl : l ≤ a) (hk : ∀ e ∈ m, e.1 ≠ a) : Memory.risingFrom l (Memory.insert m a w) = true := by
  induction m generalizing l with
  | nil => simp [Memory.insert, Memory.risingFrom, hl]
  | cons e m ih =>
    obtain ⟨k, x⟩ := e
    simp only [Memory.risingFrom, Bool.and_eq_true, decide_eq_true_eq] at h
    have hne : k ≠ a := hk (k, x) (by simp)
    by_cases hlt : a < k
    · simp only [Memory.insert, hlt, if_true, Memory.risingFrom, Bool.and_eq_true, decide_eq_true_eq]
      exact ⟨hl, by omega, h.2⟩
    · simp only [Memory.insert, hlt, if_false, Memory.risingFrom, Bool.and_eq_true, decide_eq_true_eq]
      exact ⟨h.1, ih h.2 (by omega) (fun e he => hk e (by simp [he]))⟩

theorem Memory.mem_erase {m : Memory} {a : Nat} {e : Nat × Word} (h : e ∈ Memory.erase m a) : e ∈ m := by
  induction m with
  | nil => exact h
  | cons x m ih =>
    obtain ⟨k, w⟩ := x
    by_cases hk : k = a
    · exact List.mem_cons_of_mem _ (ih (by simpa [Memory.erase, hk] using h))
    · simp only [Memory.erase, hk, if_false, List.mem_cons] at h ⊢
      exact h.imp_right ih

theorem Memory.mem_insert {m : Memory} {a : Nat} {w : Word} {e : Nat × Word} (h : e ∈ Memory.insert m a w) :
    e = (a, w) ∨ e ∈ m := by
  induction m with
  | nil => simpa [Memory.insert] using h
  | cons x m ih =>
    obtain ⟨k, y⟩ := x
    by_cases hlt : a < k
    · simpa [Memory.insert, hlt] using h
    · simp only [Memory.insert, hlt, if_false, List.mem_cons] at h ⊢
      rcases h with rfl | h
      · exact .inr (.inl rfl)
      · exact (ih h).imp_right .inr

/-- The canonical form, said with plain propositions. -/
theorem Memory.wf_iff (m : Memory) :
    m.wf = true ↔ Memory.risingFrom 0 m = true ∧ ∀ e ∈ m, e.1 < memWords ∧ e.2 ≠ Memory.unlisted := by
  simp only [Memory.wf, Bool.and_eq_true, List.all_eq_true, decide_eq_true_eq]

/-- A write inside memory keeps the canonical form. -/
theorem Memory.wf_write {m : Memory} {a : Nat} (w : Word) (h : m.wf = true) (ha : a < memWords) :
    (m.write a w).wf = true := by
  rw [Memory.wf_iff] at h ⊢
  unfold Memory.write
  by_cases hw : w = Memory.unlisted
  · rw [if_pos hw]
    exact ⟨Memory.risingFrom_erase a h.1, fun e he => h.2 e (Memory.mem_erase he)⟩
  · rw [if_neg hw]
    refine ⟨Memory.risingFrom_insert a w (Memory.risingFrom_erase a h.1) (by omega) (Memory.erase_ne m a), ?_⟩
    intro e he
    rcases Memory.mem_insert he with rfl | he
    · exact ⟨ha, hw⟩
    · exact h.2 e (Memory.mem_erase he)

/-- Writing words in a row keeps the canonical form, wherever it starts. -/
theorem Memory.wf_writeWords {m : Memory} (a : Nat) (ws : List Word) (h : m.wf = true) :
    (m.writeWords a ws).wf = true := by
  induction ws generalizing m a with
  | nil => exact h
  | cons w ws ih =>
    by_cases ha : a < memWords
    · simp only [Memory.writeWords, ha, if_true]
      exact ih (a + 1) (Memory.wf_write w h ha)
    · simpa [Memory.writeWords, ha] using h

/-- Reset memory, with nothing listed, has the canonical form. -/
theorem Memory.wf_reset : State.reset.mem.wf = true := by decide

/-- Reading any cell after writing words in a row from `a`, all of them inside memory. -/
theorem Memory.read_writeWords (m : Memory) (a : Nat) (ws : List Word) (b : Nat) (h : a + ws.length ≤ memWords) :
    Memory.read (m.writeWords a ws) b = if a ≤ b then ws.getD (b - a) (Memory.read m b) else Memory.read m b := by
  induction ws generalizing m a with
  | nil => simp [Memory.writeWords]
  | cons w ws ih =>
    simp only [List.length_cons] at h
    have ha : a < memWords := by omega
    simp only [Memory.writeWords, ha, if_true]
    rw [ih _ _ (by omega), Memory.read_write]
    rcases Nat.lt_trichotomy a b with hlt | rfl | hgt
    · have e : b - a = (b - (a + 1)) + 1 := by omega
      simp [show a + 1 ≤ b by omega, show a ≤ b by omega, show b ≠ a by omega, e]
    · simp
    · simp [show ¬ a + 1 ≤ b by omega, show ¬ a ≤ b by omega, show b ≠ a by omega]

/-! ### Through the state -/

/-- Reading any cell after the state's own store. -/
theorem State.readMem_writeMem (s : State) (a b v : Val) :
    (s.writeMem a v).readMem b = if b = a then v.toWord else s.readMem b := by
  simp [State.readMem, State.writeMem, Memory.read_write, BitVec.toNat_inj]

end Sys2Proof.Machine
end

