-- ==== Sys2Proof/Laws/Ops.lean ====
section
/-! SUPPORT. One lemma for each shared operation, saying everything it can do. -/

namespace Sys2Proof.Machine

theorem finish_eq_next {n : Nat} {j : Option Val} {s t : State} : finish n j s = .next t ↔ t = s.route n j := by
  simp [finish, eq_comm]

theorem stop_eq_next {reason : HaltReason} {n : Nat} {s t : State} :
    stop reason n s = .next t ↔ t = ({ s with status := .halted reason } : State).route n none := by
  simp [stop, finish, eq_comm]

theorem raise_eq_next {kind : FaultKind} {word : Option Word} {detail : Detail} {s t : State} :
    raise kind word detail s = .next t ↔
      t = { s with status := .error { kind := kind, addr := s.pc, word := word, detail := detail } } := by
  simp [raise, eq_comm]

/-- A designed halt leaves what R94 says. -/
theorem stopped_of_stop {reason : HaltReason} {n : Nat} {s t : State} (h : stop reason n s = .next t) :
    Stopped s t reason n := by
  obtain rfl := stop_eq_next.mp h
  exact ⟨rfl, rfl, fun _ => rfl, fun _ => rfl, rfl, rfl, rfl, rfl⟩

/-- A fault leaves what R95 says. -/
theorem raised_of_raise {kind : FaultKind} {word : Option Word} {detail : Detail} {s t : State}
    (h : raise kind word detail s = .next t) : Raised s t kind word detail := by
  obtain rfl := raise_eq_next.mp h
  exact ⟨rfl, rfl, fun _ => rfl, fun _ => rfl, rfl, rfl, rfl, rfl⟩

/-- What the destination check can do: a register goes on, a literal raises DEST_NOT_REGISTER. -/
theorem withDest_cases {code : Word} {a : Value} {s : State} {go : RegNum → Result} {o : Result}
    (h : withDest code a s go = o) :
    (∃ r, a = .reg r ∧ go r = o) ∨
      (∃ n, a = .lit n ∧ raise .destNotRegister (some code) (.operandWord n.toWord) s = o) := by
  cases a with
  | reg r => exact .inl ⟨r, rfl, h⟩
  | lit n => exact .inr ⟨n, rfl, h⟩

theorem stackFull_iff {s : State} : s.stackFull = true ↔ s.config.stackCapacity = some s.stack.length := by
  unfold State.stackFull
  split
  · rename_i n hn; simp [hn, eq_comm]
  · rename_i hn; simp [hn]

/-- Everything an instruction can do: it raises one of its own faults, stops by a designed halt, holds for input, or
finishes with one register written, one cell stored, the stack moved, a byte emitted or taken, or only `pc` moved. -/
inductive Ending (i : Instr) (s : State) : Result → Prop where
  | badDest (n : Val) (h : i.destOperand = some (.lit n)) :
      Ending i s (raise .destNotRegister (some i.code) (.operandWord n.toWord) s)
  | regref (r : RegNum) (b : Value) (hi : i = .rmem (.reg r) b) (h : 32767 < (s.readMem (s.resolve b)).toNat) :
      Ending i s (raise .regrefAsData (some i.code) (.cell (s.resolve b) (s.readMem (s.resolve b))) s)
  | divZero (r : RegNum) (b c : Value) (hi : i = .mod (.reg r) b c) (h : s.resolve c = 0) :
      Ending i s (raise .divideByZero (some i.code) .none s)
  | bounds (a : Value) (hi : i = .call a) (h : 32767 < s.pc.toNat + 2) :
      Ending i s (raise .addressBounds (some i.code) (.address (s.pc.toNat + 2)) s)
  | overflow (a : Value) (hi : i = .push a ∨ i = .call a ∧ s.pc.toNat + 2 ≤ 32767) (h : s.stackFull = true) :
      Ending i s (raise .stackOverflow (some i.code) (.depth s.stack.length) s)
  | halted (hi : i = .halt) : Ending i s (stop .haltInstr i.length s)
  | popEmpty (r : RegNum) (hi : i = .pop (.reg r)) (h : s.stack = []) : Ending i s (stop .popEmpty i.length s)
  | retEmpty (hi : i = .ret) (h : s.stack = []) : Ending i s (stop .retEmpty i.length s)
  | held (r : RegNum) (hi : i = .in_ (.reg r)) (h : s.input = []) : Ending i s (.fault .inputHold)
  | wroteReg (r : RegNum) (v : Val) (h : destReg i = some r) (hj : maySetPc i = false) :
      Ending i s (finish i.length none (s.writeReg r v))
  | stored (a v : Val) (h : storeAddress s i = some a) (hj : maySetPc i = false) :
      Ending i s (finish i.length none (s.writeMem a v))
  | pushed (a : Value) (hi : i = .push a) (h : s.stackFull = false) :
      Ending i s (finish i.length none (s.push (s.resolve a)))
  | called (a : Value) (hi : i = .call a) (hb : s.pc.toNat + 2 ≤ 32767) (h : s.stackFull = false) :
      Ending i s (finish i.length (some (s.resolve a)) (s.push (BitVec.ofNat 15 (s.pc.toNat + 2))))
  | popped (r : RegNum) (v : Val) (rest : List Val) (hi : i = .pop (.reg r)) (h : s.stack = v :: rest) :
      Ending i s (finish i.length none (({ s with stack := rest } : State).writeReg r v))
  | returned (v : Val) (rest : List Val) (hi : i = .ret) (h : s.stack = v :: rest) :
      Ending i s (finish i.length (some v) { s with stack := rest })
  | emitted (a : Value) (hi : i = .out a) : Ending i s (finish i.length none (s.emit ((s.resolve a).setWidth 8)))
  | took (r : RegNum) (b : Byte) (rest : List Byte) (hi : i = .in_ (.reg r)) (h : s.input = b :: rest) :
      Ending i s (finish i.length none (({ s with input := rest } : State).writeReg r (b.setWidth 15)))
  | moved (j : Option Val) (h : maySetPc i = true ∨ j = none) : Ending i s (finish i.length j s)

/-- What the shared three-operand operation can do. -/
theorem execBinary_ending {i : Instr} {code : Word} {f : Val → Val → Val} {a b c : Value} {s : State}
    (hc : i.code = code) (hl : i.length = 4) (hd : i.destOperand = some a) (hj : maySetPc i = false)
    (hr : ∀ r, a = .reg r → destReg i = some r) : Ending i s (execBinary code f a b c s) := by
  subst hc
  cases a with
  | lit n => exact .badDest n hd
  | reg r => unfold execBinary withDest; rw [← hl]; exact .wroteReg r _ (hr r rfl) hj

/-- The inversion lemma of `exec`: every instruction ends in one of the ways of `Ending`. -/
theorem exec_ending (i : Instr) (s : State) : Ending i s (exec i s) := by
  cases i with
  | halt => exact .halted rfl
  | set a b =>
    cases a with
    | lit n => exact .badDest (i := .set (.lit n) b) n rfl
    | reg r => exact .wroteReg (i := .set (.reg r) b) r _ rfl rfl
  | push a =>
    simp only [exec, execPush]
    split
    · rename_i h; exact .overflow (i := .push a) a (.inl rfl) h
    · rename_i h; exact .pushed a rfl (by simpa using h)
  | pop a =>
    cases a with
    | lit n => exact .badDest (i := .pop (.lit n)) n rfl
    | reg r =>
      simp only [exec, execPop, withDest]
      split
      · rename_i h; exact .popEmpty (i := .pop (.reg r)) r rfl h
      · rename_i v rest h; exact .popped (i := .pop (.reg r)) r v rest rfl h
  | eq a b c => simp only [exec, execEq]; exact execBinary_ending (i := .eq a b c) rfl rfl rfl rfl (by rintro r rfl; rfl)
  | gt a b c => simp only [exec, execGt]; exact execBinary_ending (i := .gt a b c) rfl rfl rfl rfl (by rintro r rfl; rfl)
  | jmp a => exact .moved (i := .jmp a) _ (.inl rfl)
  | jt a b => exact .moved (i := .jt a b) _ (.inl rfl)
  | jf a b => exact .moved (i := .jf a b) _ (.inl rfl)
  | add a b c =>
    cases a with
    | lit n => exact .stored (i := .add (.lit n) b c) n _ rfl rfl
    | reg r => exact .wroteReg (i := .add (.reg r) b c) r _ rfl rfl
  | mult a b c => exact execBinary_ending (i := .mult a b c) rfl rfl rfl rfl (by rintro r rfl; rfl)
  | mod a b c =>
    cases a with
    | lit n => exact .badDest (i := .mod (.lit n) b c) n rfl
    | reg r =>
      simp only [exec, execMod, withDest]
      split
      · rename_i h; exact .divZero (i := .mod (.reg r) b c) r b c rfl h
      · exact .wroteReg (i := .mod (.reg r) b c) r _ rfl rfl
  | and a b c => exact execBinary_ending (i := .and a b c) rfl rfl rfl rfl (by rintro r rfl; rfl)
  | or a b c => exact execBinary_ending (i := .or a b c) rfl rfl rfl rfl (by rintro r rfl; rfl)
  | not a b =>
    cases a with
    | lit n => exact .badDest (i := .not (.lit n) b) n rfl
    | reg r => exact .wroteReg (i := .not (.reg r) b) r _ rfl rfl
  | rmem a b =>
    cases a with
    | lit n => exact .badDest (i := .rmem (.lit n) b) n rfl
    | reg r =>
      simp only [exec, execRmem, withDest]
      split
      · rename_i h; exact .regref (i := .rmem (.reg r) b) r b rfl h
      · exact .wroteReg (i := .rmem (.reg r) b) r _ rfl rfl
  | wmem a b => exact .stored (i := .wmem a b) _ _ rfl rfl
  | call a =>
    simp only [exec, execCall]
    split
    · rename_i h; exact .bounds (i := .call a) a rfl h
    · rename_i hb
      split
      · rename_i h; exact .overflow (i := .call a) a (.inr ⟨rfl, by omega⟩) h
      · rename_i h; exact .called (i := .call a) a rfl (by omega) (by simpa using h)
  | ret =>
    simp only [exec, execRet]
    split
    · rename_i h; exact .retEmpty (i := .ret) rfl h
    · rename_i v rest h; exact .returned (i := .ret) v rest rfl h
  | out a => exact .emitted (i := .out a) a rfl
  | in_ a =>
    cases a with
    | lit n => exact .badDest (i := .in_ (.lit n)) n rfl
    | reg r =>
      simp only [exec, execIn, withDest]
      split
      · rename_i h; exact .held (i := .in_ (.reg r)) r rfl h
      · rename_i b rest h; exact .took (i := .in_ (.reg r)) r b rest rfl h
  | noop => exact .moved (i := .noop) _ (.inr rfl)

end Sys2Proof.Machine
end

