-- ==== Sys2Proof/Laws/PerInstr.lean ====
section
/-! SUPPORT. Statements made for each instruction: its encoding is 1 + arity words long, by the format of its own opcode word
(R43, R45, R46). -/

namespace Sys2Proof.Laws.EncodeLength

/-- The encoding starts with the instruction's code, and has one more word than the arity of that code. -/
def Statement (i : Instr) : Prop := (encode i).head? = some i.code ∧ (encode i).length = 1 + arityOf i.code

theorem halt : Statement .halt := ⟨rfl, rfl⟩

theorem set (a b : Value) : Statement (.set a b) := ⟨rfl, rfl⟩

theorem push (a : Value) : Statement (.push a) := ⟨rfl, rfl⟩

theorem pop (a : Value) : Statement (.pop a) := ⟨rfl, rfl⟩

theorem eq (a b c : Value) : Statement (.eq a b c) := ⟨rfl, rfl⟩

theorem gt (a b c : Value) : Statement (.gt a b c) := ⟨rfl, rfl⟩

theorem jmp (a : Value) : Statement (.jmp a) := ⟨rfl, rfl⟩

theorem jt (a b : Value) : Statement (.jt a b) := ⟨rfl, rfl⟩

theorem jf (a b : Value) : Statement (.jf a b) := ⟨rfl, rfl⟩

theorem add (a b c : Value) : Statement (.add a b c) := ⟨rfl, rfl⟩

theorem mult (a b c : Value) : Statement (.mult a b c) := ⟨rfl, rfl⟩

theorem mod (a b c : Value) : Statement (.mod a b c) := ⟨rfl, rfl⟩

theorem and (a b c : Value) : Statement (.and a b c) := ⟨rfl, rfl⟩

theorem or (a b c : Value) : Statement (.or a b c) := ⟨rfl, rfl⟩

theorem not (a b : Value) : Statement (.not a b) := ⟨rfl, rfl⟩

theorem rmem (a b : Value) : Statement (.rmem a b) := ⟨rfl, rfl⟩

theorem wmem (a b : Value) : Statement (.wmem a b) := ⟨rfl, rfl⟩

theorem call (a : Value) : Statement (.call a) := ⟨rfl, rfl⟩

theorem ret : Statement .ret := ⟨rfl, rfl⟩

theorem out (a : Value) : Statement (.out a) := ⟨rfl, rfl⟩

theorem in_ (a : Value) : Statement (.in_ a) := ⟨rfl, rfl⟩

theorem noop : Statement .noop := ⟨rfl, rfl⟩

end Sys2Proof.Laws.EncodeLength
end

