-- ==== Sys2Proof/Tests/Slice0.lean ====
section
/-! SUPPORT. The model's own tests: the WellFormed smoke test, words written out from the encodings of R43 and R47, one or
two single steps per instruction with the results of 95_test_vectors.md, and for every statement with hypotheses a
witness that meets them, at the boundary of each clause. -/

namespace Sys2Proof.Tests

open Sys2Proof.Machine

/-- The reset machine with these words from address 0. -/
def prog (ws : List Word) : State := { State.reset with mem := Memory.writeWords [] 0 ws }

/-- The outcome is a next state of which `p` holds. -/
def nextHas (o : Result) (p : State → Bool) : Bool :=
  match o with
  | .next t => p t
  | .fault _ => false
  | .refused _ => false

/-! ### WellFormed: the check refuses a literal in each D operand (R49) -/

theorem test_wellFormed_refuses_literal_destinations :
    ([.set (.lit 5) (.lit 7), .pop (.lit 5), .eq (.lit 3) (.lit 1) (.lit 1), .gt (.lit 3) (.lit 1) (.lit 1),
      .mult (.lit 3) (.lit 1) (.lit 1), .mod (.lit 5) (.lit 1) (.lit 0), .and (.lit 3) (.lit 1) (.lit 1),
      .or (.lit 3) (.lit 1) (.lit 1), .not (.lit 3) (.lit 1), .rmem (.lit 3) (.lit 1), .in_ (.lit 4)] : List Instr).all
      (fun i => !i.wellFormed) = true := by decide

theorem test_wellFormed_accepts :
    ([.set (.reg 5) (.lit 7), .add (.lit 200) (.reg 0) (.lit 1), .wmem (.lit 1) (.lit 5), .halt] : List Instr).all
      Instr.wellFormed = true := by decide

/-! ### Decoding: words written out from R43, R47 and the examples of R52 and L3 -/

theorem test_decode_halt : decode [0] = .ok (.halt, []) := rfl
theorem test_decode_set : decode [1, 32768, 1234] = .ok (.set (.reg 0) (.lit 1234), []) := rfl
theorem test_decode_push : decode [2, 32771] = .ok (.push (.reg 3), []) := rfl
theorem test_decode_pop : decode [3, 32775] = .ok (.pop (.reg 7), []) := rfl
theorem test_decode_eq : decode [4, 32768, 1, 2] = .ok (.eq (.reg 0) (.lit 1) (.lit 2), []) := rfl
theorem test_decode_gt : decode [5, 32769, 32767, 32768] = .ok (.gt (.reg 1) (.lit 32767) (.reg 0), []) := rfl
theorem test_decode_jmp : decode [6, 32766] = .ok (.jmp (.lit 32766), []) := rfl
theorem test_decode_jt : decode [7, 32768, 3] = .ok (.jt (.reg 0) (.lit 3), []) := rfl
theorem test_decode_jf : decode [8, 32768, 100] = .ok (.jf (.reg 0) (.lit 100), []) := rfl
theorem test_decode_add : decode [9, 32768, 32769, 4, 19] = .ok (.add (.reg 0) (.reg 1) (.lit 4), [19]) := rfl
theorem test_decode_mult : decode [10, 32769, 32768, 32768] = .ok (.mult (.reg 1) (.reg 0) (.reg 0), []) := rfl
theorem test_decode_mod : decode [11, 32768, 5, 0] = .ok (.mod (.reg 0) (.lit 5) (.lit 0), []) := rfl
theorem test_decode_and : decode [12, 32770, 6, 3] = .ok (.and (.reg 2) (.lit 6) (.lit 3), []) := rfl
theorem test_decode_or : decode [13, 32770, 6, 3] = .ok (.or (.reg 2) (.lit 6) (.lit 3), []) := rfl
theorem test_decode_not : decode [14, 32768, 21845] = .ok (.not (.reg 0) (.lit 21845), []) := rfl
theorem test_decode_rmem : decode [15, 32770, 100] = .ok (.rmem (.reg 2) (.lit 100), []) := rfl
theorem test_decode_wmem : decode [16, 100, 32769] = .ok (.wmem (.lit 100) (.reg 1), []) := rfl
theorem test_decode_call : decode [17, 20] = .ok (.call (.lit 20), []) := rfl
theorem test_decode_ret : decode [18] = .ok (.ret, []) := rfl
theorem test_decode_out : decode [19, 32769] = .ok (.out (.reg 1), []) := rfl
theorem test_decode_in : decode [20, 32768] = .ok (.in_ (.reg 0), []) := rfl
theorem test_decode_noop : decode [21] = .ok (.noop, []) := rfl
theorem test_decode_bad_opcodes :
    decode [22] = .error (.badOpcode 22) ∧ decode [32768] = .error (.badOpcode 32768) := ⟨rfl, rfl⟩
theorem test_decode_table_word : decodeTableWord 64 0x0004800180000009 = some (.add (.reg 0) (.reg 1) (.lit 4)) := rfl
theorem test_encode_add : encode (.add (.reg 0) (.reg 1) (.lit 4)) = [9, 32768, 32769, 4] := by decide

/-! ### One step (95_test_vectors.md, L1 and L2) -/

theorem test_halt : nextHas (step (prog [0])) (fun t => t.status == .halted .haltInstr && t.pc == 1) = true := by decide
theorem test_set : nextHas (step (prog [1, 32768, 1234])) (fun t => t.readReg 0 == 1234 && t.pc == 3) = true := by decide
theorem test_set_literal : nextHas (step (prog [1, 5, 7]))
    (fun t => t.status == .error ⟨.destNotRegister, 0, some 1, .operandWord 5⟩ && t.pc == 0) = true := by decide
theorem test_push : nextHas (step { (prog [2, 32771]).writeReg 3 77 with stack := [1] })
    (fun t => t.stack == [77, 1] && t.pc == 2) = true := by decide
theorem test_push_full :
    nextHas (step { prog [2, 2] with stack := [1], config := { stackCapacity := some 1 } })
      (fun t => t.status == .error ⟨.stackOverflow, 0, some 2, .depth 1⟩ && t.stack == [1]) = true := by decide
theorem test_pop : nextHas (step { prog [3, 32768] with stack := [2, 1] })
    (fun t => t.readReg 0 == 2 && t.stack == [1] && t.pc == 2) = true := by decide
theorem test_pop_empty : nextHas (step (prog [3, 32768])) (fun t => t.status == .halted .popEmpty && t.pc == 2) = true := by
  decide
theorem test_eq : nextHas (step (prog [4, 32768, 5, 5])) (fun t => t.readReg 0 == 1 && t.pc == 4) = true := by decide
theorem test_gt : nextHas (step (prog [5, 32768, 0, 32767])) (fun t => t.readReg 0 == 0) = true := by decide
theorem test_gt_unsigned : nextHas (step (prog [5, 32768, 32767, 0])) (fun t => t.readReg 0 == 1) = true := by decide
theorem test_jmp_register : nextHas (step ((prog [6, 32770]).writeReg 2 40)) (fun t => t.pc == 40) = true := by decide
theorem test_jt_taken : nextHas (step ((prog [7, 32768, 100]).writeReg 0 32767)) (fun t => t.pc == 100) = true := by decide
theorem test_jt_not_taken : nextHas (step (prog [7, 32768, 100])) (fun t => t.pc == 3) = true := by decide
theorem test_jf_taken : nextHas (step (prog [8, 32768, 100])) (fun t => t.pc == 100) = true := by decide
theorem test_jf_not_taken : nextHas (step ((prog [8, 32768, 100]).writeReg 0 1)) (fun t => t.pc == 3) = true := by decide
theorem test_add_wraps : nextHas (step (prog [9, 32768, 32767, 5])) (fun t => t.readReg 0 == 4 && t.pc == 4) = true := by
  decide
theorem test_add_to_memory : nextHas (step ((prog [9, 200, 32768, 1]).writeReg 0 9))
    (fun t => t.readMem 200 == 10 && t.readReg 0 == 9) = true := by decide
theorem test_mult : nextHas (step (prog [10, 32768, 30000, 30000])) (fun t => t.readReg 0 == 26880) = true := by decide
theorem test_mod : nextHas (step (prog [11, 32768, 10, 3])) (fun t => t.readReg 0 == 1 && t.pc == 4) = true := by decide
theorem test_mod_zero : nextHas (step (prog [11, 32768, 5, 0]))
    (fun t => t.status == .error ⟨.divideByZero, 0, some 11, .none⟩ && t.pc == 0) = true := by decide
theorem test_and : nextHas (step (prog [12, 32768, 6, 3])) (fun t => t.readReg 0 == 2) = true := by decide
theorem test_or : nextHas (step (prog [13, 32768, 21845, 10922])) (fun t => t.readReg 0 == 32767) = true := by decide
theorem test_not : nextHas (step (prog [14, 32768, 21845])) (fun t => t.readReg 0 == 10922 && t.pc == 3) = true := by decide
theorem test_rmem_own_opcode : nextHas (step (prog [15, 32768, 0])) (fun t => t.readReg 0 == 15 && t.pc == 3) = true := by
  decide
theorem test_rmem_register_reference : nextHas (step (prog [15, 32768, 1]))
    (fun t => t.status == .error ⟨.regrefAsData, 0, some 15, .cell 1 32768⟩ && t.readReg 0 == 0) = true := by decide
theorem test_wmem_own_word : nextHas (step (prog [16, 1, 5])) (fun t => t.readMem 1 == 5 && t.pc == 3) = true := by decide
theorem test_wmem_register : nextHas (step (((prog [16, 32769, 32770]).writeReg 1 100).writeReg 2 9))
    (fun t => t.readMem 100 == 9) = true := by decide
theorem test_call : nextHas (step ((prog [17, 32773]).writeReg 5 300)) (fun t => t.stack == [2] && t.pc == 300) = true := by
  decide
theorem test_call_at_top :
    nextHas (step { State.reset with pc := 32766, mem := Memory.writeWords [] 32766 [17, 0],
                                     config := { stackCapacity := some 0 } })
      (fun t => t.status == .error ⟨.addressBounds, 32766, some 17, .address 32768⟩ && t.stack == []) = true := by decide
theorem test_ret : nextHas (step { prog [18] with stack := [57] }) (fun t => t.pc == 57 && t.stack == []) = true := by decide
theorem test_ret_empty : nextHas (step (prog [18])) (fun t => t.status == .halted .retEmpty && t.pc == 1) = true := by decide
theorem test_out : nextHas (step { prog [19, 321] with output := [7] }) (fun t => t.output == [7, 65] && t.pc == 2) = true := by
  decide
theorem test_in : nextHas (step { prog [20, 32775] with input := [200, 10] })
    (fun t => t.readReg 7 == 200 && t.input == [10] && t.pc == 2) = true := by decide
theorem test_in_holds : step (prog [20, 32768]) = .fault .inputHold := rfl
theorem test_noop_at_top : nextHas (step { State.reset with pc := 32767, mem := [(32767, 21)] })
    (fun t => t.pc == 32768 && t.status == .running) = true := by decide

/-! ### The host (S7, S10, R52) -/

theorem test_load : (match load Config.unbounded [9, 0, 10, 0] with | .ok s => s.mem | .error _ => []) = [(0, 9), (1, 10)] := by
  decide
theorem test_load_invalid_word : load Config.unbounded [0, 0, 8, 128] = .error (.invalidWord 2 32776) := rfl
theorem test_dmp_line : lineText (0, .instr (.add (.reg 0) (.reg 1) (.lit 4))) = "0 | add r0 r1 4" := by decide
theorem test_withFetchWord : nextHas (step (State.reset.withFetchWord 64 0x0001000280000009))
    (fun t => t.readReg 0 == 3 && t.pc == 4) = true := by decide

/-! ### Witnesses: the hypotheses of each statement are met, clause by clause, at the boundary -/

theorem witness_WordsDecodeByClass :
    (32767 : Word).toNat ≤ 32767 ∧ (32768 ≤ (32768 : Word).toNat ∧ (32775 : Word).toNat ≤ 32775) ∧
      32776 ≤ (32776 : Word).toNat := by decide

theorem witness_ArityIsFixedByOpcode :
    (21 : Word).toNat ∈ [0, 18, 21] ∧ (20 : Word).toNat ∈ [2, 3, 6, 17, 19, 20] ∧
      (1 : Word).toNat ∈ [1, 7, 8, 14, 15, 16] ∧ (13 : Word).toNat ∈ [4, 5, 9, 10, 11, 12, 13] := by decide

theorem witness_EncodeOfDecode : decode [14, 32775, 32767, 3] = .ok (.not (.reg 7) (.lit 32767), [3]) := rfl

theorem witness_StepRunsTheDecodedInstruction :
    (prog [1, 32768, 5]).status = .running ∧ decode (prog [1, 32768, 5]).fetch = .ok (.set (.reg 0) (.lit 5), []) :=
  ⟨rfl, rfl⟩

/-- An `add` in the last four words of memory. -/
def addAtTop : State := { State.reset with pc := 32764, mem := Memory.writeWords [] 32764 [9, 32768, 32769, 4] }

theorem witness_WordsAtPcAreExecuted :
    addAtTop.status = .running ∧ addAtTop.pc.toNat + (Instr.add (.reg 0) (.reg 1) (.lit 4)).length = 32768 ∧
      ∀ k, k < 4 → (encode (.add (.reg 0) (.reg 1) (.lit 4)))[k]? = some (addAtTop.mem.read (addAtTop.pc.toNat + k)) := by
  decide

theorem witness_FetchFaultsInOrder_pc : ({ State.reset with pc := 32768 } : State).status = .running ∧ (32768 : Word).toNat > 32767 := by
  decide
theorem witness_FetchFaultsInOrder_opcode :
    (prog [22]).pc.toNat ≤ 32767 ∧ ((prog [22]).mem.read (prog [22]).pc.toNat).toNat > 21 := by decide
theorem witness_FetchFaultsInOrder_truncated :
    let s : State := { State.reset with pc := 32765, mem := [(32765, 9)] }
    s.pc.toNat ≤ 32767 ∧ (s.mem.read s.pc.toNat).toNat ≤ 21 ∧ s.pc.toNat + arityOf (s.mem.read s.pc.toNat) > 32767 := by decide
theorem witness_FetchFaultsInOrder_operand :
    let s : State := { State.reset with pc := 32764, mem := Memory.writeWords [] 32764 [9, 32775, 32767, 32776] }
    s.pc.toNat ≤ 32767 ∧ (s.mem.read s.pc.toNat).toNat ≤ 21 ∧ s.pc.toNat + arityOf (s.mem.read s.pc.toNat) ≤ 32767 ∧
      3 ≤ arityOf (s.mem.read s.pc.toNat) ∧ (∀ j, 1 ≤ j → j < 3 → (s.mem.read (s.pc.toNat + j)).toNat ≤ 32775) ∧
      (s.mem.read (s.pc.toNat + 3)).toNat > 32775 := by
  refine ⟨by decide, by decide, by decide, by decide, fun j h h' => ?_, by decide⟩
  interval_cases j <;> decide

theorem witness_LiteralDestinationsFault :
    (Instr.pop (.lit 5)).wellFormed = false ∧
      ∃ t f, (Instr.mod (.reg 0) (.lit 5) (.lit 0)).wellFormed = true ∧ State.reset.status = .running ∧
        exec (.mod (.reg 0) (.lit 5) (.lit 0)) State.reset = .next t ∧ t.status = .error f :=
  ⟨rfl, _, _, rfl, rfl, rfl, rfl⟩

theorem witness_CallPushesReturnAddress :
    (let s : State := { State.reset with pc := 32765 }
     s.pc.toNat + 2 ≤ 32767 ∧ s.config.stackCapacity ≠ some s.stack.length) ∧
    (32766 : Word).toNat + 2 > 32767 ∧
    (let s : State := { State.reset with stack := [5], config := { stackCapacity := some 1 } }
     s.pc.toNat + 2 ≤ 32767 ∧ s.config.stackCapacity = some s.stack.length) := by decide

theorem witness_RetPopsPc : ({ State.reset with stack := [57] } : State).stack = 57 :: [] ∧ State.reset.stack = [] := ⟨rfl, rfl⟩

theorem witness_RmemReadsCell :
    ((prog [32767]).readMem ((prog [32767]).resolve (.lit 0))).toNat ≤ 32767 ∧
      ((prog [32768]).readMem ((prog [32768]).resolve (.lit 0))).toNat > 32767 := by decide

theorem witness_PushPutsOnTop :
    State.reset.config.stackCapacity ≠ some State.reset.stack.length ∧
    (let s : State := { State.reset with config := { stackCapacity := some 0 } }
     s.config.stackCapacity = some s.stack.length) := by decide

theorem witness_PopTakesTop : ({ State.reset with stack := [2, 1] } : State).stack = 2 :: [1] ∧ State.reset.stack = [] :=
  ⟨rfl, rfl⟩

theorem witness_ModWritesRemainder :
    (State.reset.resolve (.lit 1)).toNat ≠ 0 ∧ (State.reset.resolve (.lit 0)).toNat = 0 := by decide

theorem witness_InTakesNextByte :
    ({ State.reset with input := [255] } : State).input = 255 :: [] ∧ State.reset.input = [] := ⟨rfl, rfl⟩

theorem witness_OnlyNamedRegistersWritten :
    (∃ t, exec (.set (.reg 7) (.lit 5)) State.reset = .next t ∧ t.readReg 7 ≠ State.reset.readReg 7) ∧
      ∃ t, hostWriteReg 7 32767 State.reset = .ok t ∧ t.readReg 7 ≠ State.reset.readReg 7 :=
  ⟨⟨_, rfl, by decide⟩, _, rfl, by decide⟩

theorem witness_UnnamedRegistersNotRead :
    Value.reg 1 ∉ (Instr.set (.reg 7) (.reg 0)).operands ∧ ∃ t, exec (.set (.reg 7) (.reg 0)) State.reset = .next t :=
  ⟨by decide, _, rfl⟩

theorem witness_OnlyStoresChangeMemory :
    (∃ t, exec (.wmem (.lit 32767) (.lit 9)) State.reset = .next t ∧ t.readMem 32767 ≠ State.reset.readMem 32767) ∧
      ∃ t, exec (.add (.lit 0) (.lit 1) (.lit 9)) State.reset = .next t ∧ t.readMem 0 ≠ State.reset.readMem 0 :=
  ⟨⟨_, rfl, by decide⟩, _, rfl, by decide⟩

theorem witness_StackChangesOnlyAtTop :
    (∃ t, exec (.push (.lit 9)) State.reset = .next t ∧ t.stack = [9]) ∧
    (∃ t, exec (.call (.lit 9)) State.reset = .next t ∧ t.stack = [2]) ∧
    (∃ t, exec (.pop (.reg 0)) { State.reset with stack := [4] } = .next t ∧ t.stack = []) ∧
      ∃ t, exec .ret { State.reset with stack := [4] } = .next t ∧ t.stack = [] :=
  ⟨⟨_, rfl, rfl⟩, ⟨_, rfl, rfl⟩, ⟨_, rfl, rfl⟩, _, rfl, rfl⟩

theorem witness_RouterChoosesNextPc :
    State.reset.status = .running ∧ (∃ t, exec (.jmp (.lit 0)) State.reset = .next t ∧ t.pc = 0) ∧
    (∃ t, exec .halt State.reset = .next t ∧ t.pc = 1) ∧ ∃ t, exec (.set (.lit 0) (.lit 0)) State.reset = .next t ∧ t.pc = 0 :=
  ⟨rfl, ⟨_, rfl, rfl⟩, ⟨_, rfl, rfl⟩, _, rfl, rfl⟩

theorem witness_PortsMoveOneByteInOrder :
    (∃ t, exec (.out (.lit 321)) State.reset = .next t ∧ t.output = [65]) ∧
      ∃ t, exec (.in_ (.reg 0)) { State.reset with input := [65, 10] } = .next t ∧ t.input = [10] :=
  ⟨⟨_, rfl, rfl⟩, _, rfl, rfl⟩

theorem witness_OutputIsNeverRead : ∃ t, step (prog [19, 65]) = .next t ∧ t.output = [65] := ⟨_, rfl, rfl⟩

theorem witness_LaterInputIsNotSeen : ∃ t, step { prog [20, 32768] with input := [65] } = .next t ∧ t.input = [] :=
  ⟨_, rfl, rfl⟩

theorem witness_OnlyInHolds :
    step (prog [20, 32768]) = .fault .inputHold ∧ (prog [20, 32768]).status = .running ∧ (prog [20, 32768]).input = [] ∧
      decode (prog [20, 32768]).fetch = .ok (.in_ (.reg 0), []) := ⟨rfl, rfl, rfl, rfl⟩

theorem witness_FaultsArePrecise :
    (∃ t f, (prog [22]).status = .running ∧ step (prog [22]) = .next t ∧ t.status = .error f) ∧
      ∃ t f, step (prog [11, 32768, 5, 0]) = .next t ∧ t.status = .error f :=
  ⟨⟨_, _, rfl, rfl, rfl⟩, _, _, rfl, rfl⟩

/-- A running state whose next instruction raises a fault of this kind. -/
def RaisesNext (s : State) (kind : FaultKind) : Prop :=
  ∃ t i rest f, s.status = .running ∧ decode s.fetch = .ok (i, rest) ∧ step s = .next t ∧ t.status = .error f ∧ f.kind = kind

theorem witness_FaultsHaveTheirCauses :
    RaisesNext (prog [1, 5, 7]) .destNotRegister ∧ RaisesNext (prog [15, 32768, 1]) .regrefAsData ∧
    RaisesNext (prog [11, 32768, 5, 0]) .divideByZero ∧
    RaisesNext { State.reset with pc := 32766, mem := [(32766, 17)] } .addressBounds ∧
    RaisesNext { prog [2, 2] with config := { stackCapacity := some 0 } } .stackOverflow :=
  ⟨⟨_, _, _, _, rfl, rfl, rfl, rfl, rfl⟩, ⟨_, _, _, _, rfl, rfl, rfl, rfl, rfl⟩, ⟨_, _, _, _, rfl, rfl, rfl, rfl, rfl⟩,
    ⟨_, _, _, _, rfl, rfl, rfl, rfl, rfl⟩, ⟨_, _, _, _, rfl, rfl, rfl, rfl, rfl⟩⟩

theorem witness_HaltsHaveTheirCauses :
    (∃ t, step (prog [0]) = .next t ∧ t.status = .halted .haltInstr) ∧
    (∃ t, step (prog [3, 32768]) = .next t ∧ t.status = .halted .popEmpty) ∧
      ∃ t, (prog [18]).status = .running ∧ step (prog [18]) = .next t ∧ t.status = .halted .retEmpty :=
  ⟨⟨_, rfl, rfl⟩, ⟨_, rfl, rfl⟩, _, rfl, rfl, rfl⟩

theorem witness_StoppedCoreStaysStopped :
    ({ State.reset with status := .halted .haltInstr } : State).status ≠ .running ∧
      ({ State.reset with status := .error ⟨.divideByZero, 0, some 11, .none⟩ } : State).status ≠ .running := by decide

theorem witness_NextFetchSeesStore :
    (∃ t, exec (.wmem (.lit 3) (.lit 21)) State.reset = .next t ∧ t.pc = (State.reset.resolve (.lit 3)).toWord) ∧
      ∃ t, exec (.add (.lit 4) (.lit 0) (.lit 21)) State.reset = .next t ∧ t.pc = Val.toWord 4 :=
  ⟨⟨_, rfl, rfl⟩, _, rfl, rfl⟩

theorem witness_StackRoundTrips :
    let s : State := { State.reset with pc := 32765 }
    s.pc.toNat + 2 ≤ 32767 ∧ s.config.stackCapacity ≠ some s.stack.length := by decide

theorem witness_ResetIsAllZero :
    State.reset = State.reset ∧ ∃ cfg, State.resetWith { stackCapacity := some 3 } = State.resetWith cfg := ⟨rfl, _, rfl⟩

theorem witness_LoadPutsWordsFromZero :
    ∃ s, load Config.unbounded [9, 0, 10, 128] = .error (.invalidWord 2 32778) ∧
      load Config.unbounded [9, 0, 7, 128] = .ok s ∧ 2 * 1 < [9, 0, 7, 128].length ∧ [9, 0, 7, 128].length ≤ 2 * 2 :=
  ⟨_, rfl, rfl, by decide, by decide⟩

theorem witness_LoadChecksInOrder_lengths :
    ([0] : List Byte).length % 2 = 1 ∧
      (List.replicate 65538 (0 : Byte)).length % 2 = 0 ∧ (List.replicate 65538 (0 : Byte)).length > 65536 := by
  rw [List.length_replicate]; decide

theorem witness_LoadChecksInOrder_words :
    (let bytes : List Byte := [7, 128, 8, 128]
     bytes.length % 2 = 0 ∧ bytes.length ≤ 65536 ∧ 2 * 1 < bytes.length ∧
      (bytes.getD (2 * 0) 0).toNat + 256 * (bytes.getD (2 * 0 + 1) 0).toNat ≤ 32775 ∧
      (bytes.getD (2 * 1) 0).toNat + 256 * (bytes.getD (2 * 1 + 1) 0).toNat > 32775) ∧
    ∃ s, load Config.unbounded [] = .ok s := ⟨by decide, _, rfl⟩

theorem witness_HostRegisterWriteIsChecked :
    32767 ≤ 32767 ∧ 8 > 7 ∧ 7 ≤ 7 ∧ 32768 > 32767 := by decide

theorem witness_RunRepeatsStep :
    (∃ t, runToCompletion 1 (prog [0]) = .ended t) ∧
    (∃ t, (prog [21, 21]).status = .running ∧ runToCompletion 1 (prog [21, 21]) = .stoppedByHost t) ∧
      ∃ t, runToCompletion 2 (prog [21, 20, 32768]) = .holding t := ⟨⟨_, rfl⟩, ⟨_, rfl, rfl⟩, _, rfl⟩

theorem disassemble_first_line (n : Nat) : (0, DisasmItem.instr .halt) ∈ Memory.disassemble [] (n + 1) 0 :=
  List.mem_cons_self

theorem witness_DisassemblyCoversMemory : (0, DisasmItem.instr .halt) ∈ State.reset.dmp := disassemble_first_line 32767

/-- A program `wmem 6 19` in memory, a register written by the host, input delivered. -/
def running : State := hostDeliver [65] ((prog [16, 6, 19]).writeReg 1 65)

theorem running_inv : Inv running := by
  refine ⟨by decide, fun a => ?_, by decide, fun n h => (nomatch h), by simp [running, prog, hostDeliver, State.reset, State.resetWith], ?_⟩
  · show (Memory.read (Memory.writeWords [] 0 [16, 6, 19]) a.toNat).toNat ≤ maxValidWord
    rw [Memory.read_writeWords _ _ _ _ (by decide)]
    match a.toNat with
    | 0 => decide
    | 1 => decide
    | 2 => decide
    | n + 3 => simp [Memory.read, Memory.unlisted]
  · intro f h; cases h

theorem witness_StepKeepsInvariant : ∃ t, Inv running ∧ step running = .next t ∧ t.readMem 6 = 19 :=
  ⟨_, running_inv, rfl, by decide⟩

theorem witness_HostActionKeepsInvariant : Inv running ∧ (hostAct running (.writeReg 7 32767)).readReg 7 = 32767 :=
  ⟨running_inv, by decide⟩

theorem witness_LoadMeetsInvariant : ∃ s, load Config.unbounded [7, 128] = .ok s ∧ s.readMem 0 = 32775 := ⟨_, rfl, by decide⟩

theorem witness_ReachableStatesMeetInvariant :
    ∃ s, Reachable s ∧ s.readReg 1 = 65 ∧ s.output = [65] :=
  ⟨_, ⟨Config.unbounded, [19, 0, 1, 128], _, [.writeReg 1 65, .step], rfl, rfl⟩, by decide, by decide⟩

end Sys2Proof.Tests
end

namespace Sys2Proof

/-- Widening a value keeps its number (R8). -/
theorem Val.toNat_toWord (v : Val) : v.toWord.toNat = v.toNat :=
  BitVec.toNat_setWidth_of_le (by decide)

/-! ## What decodes, and what a decode error says of the words -/

/-- The format makes only instructions with opcode word `w` and exactly the operands it is given (R43, R47). -/
def Format.MakesCode (w : Word) : Format → Prop
  | .f0 i => i.code = w ∧ i.operands = []
  | .f1 mk => ∀ a, (mk a).code = w ∧ (mk a).operands = [a]
  | .f2 mk => ∀ a b, (mk a b).code = w ∧ (mk a b).operands = [a, b]
  | .f3 mk => ∀ a b c, (mk a b c).code = w ∧ (mk a b c).operands = [a, b, c]

theorem opcodeMap_makesCode {w : Word} {f : Format} (h : opcodeMap w = some f) : f.MakesCode w := by
  have hle : w.toNat ≤ 21 := by
    by_contra hgt
    rw [opcodeMap_eq_none.mpr (by omega)] at h
    cases h
  obtain ⟨k, hk⟩ : ∃ k, w.toNat = k := ⟨_, rfl⟩
  obtain rfl : w = BitVec.ofNat 16 k := by rw [← hk, BitVec.ofNat_toNat, BitVec.setWidth_eq]
  have hk' : k ≤ 21 := by rwa [hk] at hle
  clear hle hk
  interval_cases k
  all_goals
    cases h
    simp only [Format.MakesCode]
    intros
    exact ⟨rfl, rfl⟩

/-- What decodes is the encoding of the instruction read, followed by the words that are left (R43, R48, R58). -/
theorem eq_encode_of_decode {ws rest : List Word} {i : Instr} (h : decode ws = .ok (i, rest)) :
    ws = encode i ++ rest := by
  unfold decode at h
  split at h
  · cases h
  · rename_i w tail
    split at h
    · cases h
    · rename_i i' hf
      cases h
      obtain ⟨hc, ho⟩ := opcodeMap_makesCode hf
      simp [encode, hc, ho]
    · rename_i mk hf
      split at h
      · rename_i a _
        split at h
        · cases h
        · rename_i va ha
          cases h
          obtain ⟨hc, ho⟩ := opcodeMap_makesCode hf va
          simp [encode, hc, ho, encodeValue_of_decodeValue ha]
      · cases h
    · rename_i mk hf
      split at h
      · rename_i a b _
        split at h
        · cases h
        · cases h
        · rename_i va vb ha hb
          cases h
          obtain ⟨hc, ho⟩ := opcodeMap_makesCode hf va vb
          simp [encode, hc, ho, encodeValue_of_decodeValue ha, encodeValue_of_decodeValue hb]
      · cases h
    · rename_i mk hf
      split at h
      · rename_i a b c _
        split at h
        · cases h
        · cases h
        · cases h
        · rename_i va vb vc ha hb hc'
          cases h
          obtain ⟨hc, ho⟩ := opcodeMap_makesCode hf va vb vc
          simp [encode, hc, ho, encodeValue_of_decodeValue ha, encodeValue_of_decodeValue hb,
            encodeValue_of_decodeValue hc']
      · cases h

/-- What a decode error says of the words (R51): its opcode word is the first of them, none when there is none, and an
invalid operand is one of them and decodes to nothing. -/
def DecodeError.TrueOf (ws : List Word) : DecodeError → Prop
  | .noOpcodeWord => ws.head? = none
  | .badOpcode w | .truncated w => ws.head? = some w
  | .invalidOperand w ow => ws.head? = some w ∧ ow ∈ ws ∧ decodeValue ow = none

theorem trueOf_of_decode_error {ws : List Word} {e : DecodeError} (h : decode ws = .error e) : e.TrueOf ws := by
  unfold decode at h
  repeat' split at h
  all_goals cases h
  all_goals simp [DecodeError.TrueOf, *]

end Sys2Proof

namespace Sys2Proof.Machine

/-! ## The fetch: where the words lie, and what the step does with them -/

/-- The words read from `a` upward end inside memory (R50). -/
theorem Memory.add_length_readWords_le (m : Memory) {a : Nat} (n : Nat) (ha : a ≤ memWords) :
    a + (m.readWords a n).length ≤ memWords := by
  induction n generalizing a with
  | zero => simpa [Memory.readWords] using ha
  | succ n ih =>
    unfold Memory.readWords
    split
    · rename_i hlt
      have := ih (a := a + 1) hlt
      simp only [List.length_cons]
      omega
    · simpa using ha

/-- Every word read is the content of a cell inside memory. -/
theorem Memory.exists_of_mem_readWords {m : Memory} {a n : Nat} {w : Word} (h : w ∈ m.readWords a n) :
    ∃ b, b < memWords ∧ w = m.read b := by
  induction n generalizing a with
  | zero => simp [Memory.readWords] at h
  | succ n ih =>
    unfold Memory.readWords at h
    split at h
    · rename_i hlt
      rcases List.mem_cons.mp h with rfl | h
      · exact ⟨a, hlt, rfl⟩
      · exact ih h
    · simp at h

/-- The fetched words end inside memory, when `pc` is in 0..32768. -/
theorem State.pc_add_length_fetch_le {s : State} (h : s.pc.toNat ≤ memWords) :
    s.pc.toNat + s.fetch.length ≤ memWords := by
  unfold State.fetch Memory.fetchAt
  split
  · rename_i hlt
    have := s.mem.add_length_readWords_le (arityOf (s.mem.read s.pc.toNat)) (a := s.pc.toNat + 1) hlt
    simp only [List.length_cons]
    omega
  · simpa using h

/-- The first fetched word is the one at `pc` (R20, R58). -/
theorem State.head?_fetch (s : State) : s.fetch.head? = wordAtPc s := by
  unfold State.fetch Memory.fetchAt wordAtPc
  split <;> rfl

/-- Every fetched word is the content of a data address. -/
theorem State.exists_readMem_of_mem_fetch {s : State} {w : Word} (h : w ∈ s.fetch) : ∃ a : Val, w = s.readMem a := by
  obtain ⟨b, hb, rfl⟩ : ∃ b, b < memWords ∧ w = s.mem.read b := by
    unfold State.fetch Memory.fetchAt at h
    split at h
    · rename_i hlt
      rcases List.mem_cons.mp h with rfl | h
      · exact ⟨_, hlt, rfl⟩
      · exact Memory.exists_of_mem_readWords h
    · simp at h
  refine ⟨BitVec.ofNat 15 b, ?_⟩
  rw [State.readMem, BitVec.toNat_ofNat, Nat.mod_eq_of_lt (show b < 2 ^ 15 from hb)]

/-- A decoded instruction is the one whose code stands at `pc` (R20, R54). -/
theorem wordAtPc_of_decode {s : State} {i : Instr} {rest : List Word} (h : decode s.fetch = .ok (i, rest)) :
    wordAtPc s = some i.code := by
  rw [← State.head?_fetch, eq_encode_of_decode h]
  rfl

/-- A decoded instruction ends inside memory (R50). -/
theorem pc_add_length_le_of_decode {s : State} {i : Instr} {rest : List Word} (hpc : s.pc.toNat ≤ memWords)
    (h : decode s.fetch = .ok (i, rest)) : s.pc.toNat + i.length ≤ memWords := by
  have hfetch := State.pc_add_length_fetch_le hpc
  have hlen : s.fetch.length = i.length + rest.length := by
    rw [eq_encode_of_decode h, List.length_append, Instr.length]
  omega

/-- A running core runs the instruction it decodes (R54). -/
theorem step_of_decode {s : State} {i : Instr} {rest : List Word} (hrun : s.status = .running)
    (hd : decode s.fetch = .ok (i, rest)) : step s = exec i s := by
  simp only [step, hrun, hd]

/-- A running core whose fetch decodes nothing takes the fault of the fetch (R51, R54). -/
theorem step_of_decode_error {s : State} {e : DecodeError} (hrun : s.status = .running)
    (hd : decode s.fetch = .error e) : step s = raiseDecode e s := by
  simp only [step, hrun, hd]

/-- The two things a running core can do. -/
theorem running_step_cases {s : State} (hrun : s.status = .running) :
    (∃ i rest, decode s.fetch = .ok (i, rest) ∧ step s = exec i s) ∨
      ∃ e, decode s.fetch = .error e ∧ step s = raiseDecode e s := by
  cases hd : decode s.fetch with
  | ok p => exact .inl ⟨p.1, p.2, rfl, step_of_decode hrun hd⟩
  | error e => exact .inr ⟨e, rfl, step_of_decode_error hrun hd⟩

/-- A step of a stopped core changes nothing (R56). -/
theorem step_of_not_running {s : State} (h : s.status ≠ .running) : step s = .next s := by
  unfold step
  cases hs : s.status with
  | running => exact absurd hs h
  | halted _ => rfl
  | error _ => rfl

/-- A fault of the fetch changes only the status, and its record names `pc` and the word there (R20, R95). -/
theorem raiseDecode_precise {s t : State} {e : DecodeError} (hd : decode s.fetch = .error e)
    (h : raiseDecode e s = .next t) :
    ∃ f, t = { s with status := .error f } ∧ f.addr = s.pc ∧ f.word = wordAtPc s := by
  have he := trueOf_of_decode_error hd
  rw [← State.head?_fetch]
  cases e with
  | noOpcodeWord => exact ⟨_, raise_eq_next.mp h, rfl, he.symm⟩
  | badOpcode w => exact ⟨_, raise_eq_next.mp h, rfl, he.symm⟩
  | truncated w => exact ⟨_, raise_eq_next.mp h, rfl, he.symm⟩
  | invalidOperand w ow => exact ⟨_, raise_eq_next.mp h, rfl, he.1.symm⟩

/-- An instruction that ends in a fault changes only the status, and the record names `pc` and the instruction's code. -/
theorem exec_fault_precise {i : Instr} {s t : State} {f : FaultRecord} (hrun : s.status = .running)
    (h : exec i s = .next t) (hf : t.status = .error f) :
    t = { s with status := .error f } ∧ f.addr = s.pc ∧ f.word = some i.code := by
  have hend := exec_ending i s
  rw [h] at hend
  cases hend
  case badDest | regref | divZero | bounds | overflow => cases hf; exact ⟨rfl, rfl, rfl⟩
  case halted | popEmpty | retEmpty => cases hf
  all_goals exact nomatch hrun.symm.trans hf

end Sys2Proof.Machine

namespace Sys2Proof.Machine

/-! ## The invariant, one lemma per update of the state -/

/-- Registers and the host's streams do not enter the invariant. -/
theorem Inv.of_same {s t : State} (h : Inv s) (hmem : t.mem = s.mem) (hstack : t.stack = s.stack) (hpc : t.pc = s.pc)
    (hstatus : t.status = s.status) (hconfig : t.config = s.config) : Inv t := by
  obtain ⟨regs, mem, stack, pc, status, config, input, output⟩ := t
  subst hmem hstack hpc hstatus hconfig
  exact ⟨h.memForm, h.cells, h.pcRange, h.depth, h.emptyHalt, h.record⟩

theorem Inv.writeReg {s : State} (h : Inv s) (r : RegNum) (v : Val) : Inv (s.writeReg r v) :=
  h.of_same rfl rfl rfl rfl rfl

/-- For a running core the two clauses about stops say nothing. -/
theorem Inv.of_running {s : State} (hrun : s.status = .running) (hmem : s.mem.wf = true)
    (hcells : ∀ a : Val, (s.readMem a).toNat ≤ maxValidWord) (hpc : s.pc.toNat ≤ memWords)
    (hdepth : ∀ n, s.config.stackCapacity = some n → s.stack.length ≤ n) : Inv s where
  memForm := hmem
  cells := hcells
  pcRange := hpc
  depth := hdepth
  emptyHalt := by simp [hrun]
  record := by simp [hrun]

theorem Inv.writeMem {s : State} (h : Inv s) (hrun : s.status = .running) (a v : Val) : Inv (s.writeMem a v) := by
  refine .of_running hrun (Memory.wf_write _ h.memForm a.isLt) (fun b => ?_) h.pcRange h.depth
  rw [State.readMem_writeMem]
  split
  · have := v.isLt
    rw [Val.toNat_toWord, maxValidWord]
    omega
  · exact h.cells b

theorem Inv.setStack {s : State} (h : Inv s) (hrun : s.status = .running) {stack : List Val}
    (hdepth : ∀ n, s.config.stackCapacity = some n → stack.length ≤ n) : Inv { s with stack := stack } :=
  .of_running hrun h.memForm h.cells h.pcRange hdepth

theorem Inv.push {s : State} (h : Inv s) (hrun : s.status = .running) (hfull : s.stackFull = false) (v : Val) :
    Inv (s.push v) := by
  refine h.setStack hrun fun n hn => ?_
  have hle := h.depth n hn
  have hne : s.stack.length ≠ n := by
    rintro rfl
    rw [stackFull_iff.mpr hn] at hfull
    cases hfull
  rw [List.length_cons]
  omega

theorem Inv.popStack {s : State} (h : Inv s) (hrun : s.status = .running) {v : Val} {rest : List Val}
    (hs : s.stack = v :: rest) : Inv { s with stack := rest } := by
  refine h.setStack hrun fun n hn => ?_
  have hle := h.depth n hn
  rw [hs, List.length_cons] at hle
  omega

/-- The router stays in 0..32768 (R16, R64): a jump target has 15 bits, and else the instruction ends inside memory. -/
theorem nextPc_le {p : Word} {n : Nat} (h : p.toNat + n ≤ memWords) (j : Option Val) :
    (nextPc p n j).toNat ≤ memWords := by
  unfold memWords at *
  cases j with
  | none => rw [nextPc_none, BitVec.toNat_add, BitVec.toNat_ofNat]; omega
  | some t => have := t.isLt; rw [nextPc_some, Val.toNat_toWord]; omega

theorem Inv.route {s : State} (h : Inv s) (hrun : s.status = .running) {n : Nat} (hn : s.pc.toNat + n ≤ memWords)
    (j : Option Val) : Inv (s.route n j) :=
  .of_running hrun h.memForm h.cells (nextPc_le hn j) h.depth

/-- A designed halt for an empty stack needs an empty stack (R92). -/
theorem Inv.stop {s : State} (h : Inv s) {reason : HaltReason} {n : Nat} (hn : s.pc.toNat + n ≤ memWords)
    (hempty : reason = .popEmpty ∨ reason = .retEmpty → s.stack = []) :
    Inv (({ s with status := .halted reason } : State).route n none) where
  memForm := h.memForm
  cells := h.cells
  pcRange := nextPc_le hn none
  depth := h.depth
  emptyHalt := by
    rintro (he | he) <;> cases he
    · exact hempty (.inl rfl)
    · exact hempty (.inr rfl)
  record := fun _ hf => nomatch hf

/-- A fault keeps the invariant when its record is true of the state (R20, R93). -/
theorem Inv.setError {s : State} (h : Inv s) {f : FaultRecord} (haddr : f.addr = s.pc) (hword : f.word = wordAtPc s)
    (hdetail : DetailFits s f) : Inv { s with status := .error f } where
  memForm := h.memForm
  cells := h.cells
  pcRange := h.pcRange
  depth := h.depth
  emptyHalt := by rintro (he | he) <;> cases he
  record := by
    rintro _ ⟨⟩
    exact ⟨haddr, hword, hdetail⟩

/-! ## Every step keeps the invariant -/

/-- An instruction that ends inside memory and whose code stands at `pc` keeps the invariant. -/
theorem exec_keeps_inv {i : Instr} {s t : State} (h : Inv s) (hrun : s.status = .running)
    (hlen : s.pc.toNat + i.length ≤ memWords) (hword : wordAtPc s = some i.code) (hexec : exec i s = .next t) :
    Inv t := by
  have hend := exec_ending i s
  rw [hexec] at hend
  cases hend with
  | badDest n => exact h.setError rfl hword.symm ⟨_, rfl, by have := n.isLt; rw [Val.toNat_toWord]; omega⟩
  | regref r b _ hcell => exact h.setError rfl hword.symm ⟨_, rfl, hcell⟩
  | divZero => exact h.setError rfl hword.symm rfl
  | bounds a hi hpc =>
    have hpc : s.pc.toNat = 32766 := by
      subst hi
      have : s.pc.toNat + 2 ≤ 32768 := hlen
      omega
    exact h.setError rfl hword.symm ⟨by rw [hpc], hpc⟩
  | overflow a _ hfull => exact h.setError rfl hword.symm ⟨rfl, stackFull_iff.mp hfull⟩
  | halted => exact h.stop hlen (by simp)
  | popEmpty r _ hs => exact h.stop hlen fun _ => hs
  | retEmpty _ hs => exact h.stop hlen fun _ => hs
  | wroteReg r v => exact (h.writeReg r v).route hrun hlen none
  | stored a v => exact (h.writeMem hrun a v).route hrun hlen none
  | pushed a _ hfull => exact (h.push hrun hfull _).route hrun hlen none
  | called a _ _ hfull => exact (h.push hrun hfull _).route hrun hlen _
  | popped r v rest _ hs => exact ((h.popStack hrun hs).writeReg r v).route hrun hlen none
  | returned v rest _ hs => exact (h.popStack hrun hs).route hrun hlen _
  | emitted a => exact Inv.route (s := s.emit _) (h.of_same rfl rfl rfl rfl rfl) hrun hlen none
  | took r b rest =>
    exact Inv.route (s := State.writeReg { s with input := rest } r _) (h.of_same rfl rfl rfl rfl rfl) hrun hlen none
  | moved j => exact h.route hrun hlen j

/-- A fault of the fetch keeps the invariant: no operand word is above 32775, since no cell is (R23, R48). -/
theorem raiseDecode_keeps_inv {s t : State} {e : DecodeError} (h : Inv s) (hd : decode s.fetch = .error e)
    (hraise : raiseDecode e s = .next t) : Inv t := by
  obtain ⟨f, rfl, haddr, hword⟩ := raiseDecode_precise hd hraise
  cases e with
  | noOpcodeWord => cases hraise; exact h.setError haddr hword rfl
  | badOpcode w => cases hraise; exact h.setError haddr hword rfl
  | truncated w => cases hraise; exact h.setError haddr hword rfl
  | invalidOperand w ow =>
    obtain ⟨-, hmem, hnone⟩ := trueOf_of_decode_error hd
    obtain ⟨a, rfl⟩ := State.exists_readMem_of_mem_fetch hmem
    have hlt := decodeValue_eq_none.mp hnone
    have hle := h.cells a
    omega

theorem step_keeps_inv {s t : State} (h : Inv s) (hstep : step s = .next t) : Inv t := by
  by_cases hrun : s.status = .running
  · rcases running_step_cases hrun with ⟨i, rest, hd, he⟩ | ⟨e, hd, he⟩
    · exact exec_keeps_inv h hrun (pc_add_length_le_of_decode h.pcRange hd) (wordAtPc_of_decode hd) (he ▸ hstep)
    · exact raiseDecode_keeps_inv h hd (he ▸ hstep)
  · rw [step_of_not_running hrun] at hstep
    cases hstep
    exact h

/-- Settles O57: a stopped core stays as it is, an instruction keeps the invariant by how it can end, and a fault of the
fetch by what the decoder's error says of the words. -/
theorem stepKeepsInvariant : Obligations.StepKeepsInvariant :=
  fun _ _ => step_keeps_inv

end Sys2Proof.Machine

namespace Sys2Proof.Machine

/-! ## Reset, load and the host keep the invariant -/

theorem inv_resetWith (cfg : Config) : Inv (State.resetWith cfg) :=
  .of_running rfl rfl (fun _ => Nat.zero_le _) (Nat.zero_le _) (fun _ _ => Nat.zero_le _)

/-- The words of a file that passes the third check are all legal (R112). -/
theorem le_of_firstInvalid_eq_none {ws : List Word} {offset : Nat} (h : firstInvalid offset ws = none) :
    ∀ w ∈ ws, w.toNat ≤ maxValidWord := by
  induction ws generalizing offset with
  | nil => simp
  | cons x ws ih =>
    unfold firstInvalid at h
    split at h
    · cases h
    · rename_i hx
      exact List.forall_mem_cons.mpr ⟨Nat.not_lt.mp hx, ih h⟩

/-- What a successful load is: the reset state with the file's words from address 0, all of them legal (R112, R113). -/
theorem load_eq_ok {cfg : Config} {bytes : List Byte} {s : State} (h : load cfg bytes = .ok s) :
    (wordsOfBytes bytes).length ≤ memWords ∧ firstInvalid 0 (wordsOfBytes bytes) = none ∧
      s = { State.resetWith cfg with mem := Memory.writeWords [] 0 (wordsOfBytes bytes) } := by
  unfold load loadWords at h
  split at h
  · cases h
  · split at h
    · cases h
    · rename_i hlen
      split at h
      · cases h
      · rename_i hvalid
        cases h
        exact ⟨Nat.not_lt.mp hlen, hvalid, rfl⟩

theorem load_meets_inv {cfg : Config} {bytes : List Byte} {s : State} (h : load cfg bytes = .ok s) : Inv s := by
  obtain ⟨hlen, hvalid, rfl⟩ := load_eq_ok h
  have hle := le_of_firstInvalid_eq_none hvalid
  generalize wordsOfBytes bytes = ws at hlen hle
  refine .of_running rfl (Memory.wf_writeWords 0 ws rfl) (fun a => ?_) (Nat.zero_le _) (fun _ _ => Nat.zero_le _)
  rw [State.readMem, Memory.read_writeWords _ _ _ _ (by omega), if_pos (Nat.zero_le _), List.getD_eq_getElem?_getD]
  cases hw : ws[a.toNat - 0]? with
  | none => exact Nat.zero_le _
  | some w => exact hle w (List.mem_of_getElem? hw)

/-- A register write the host is allowed is a register write (R103). -/
theorem hostWriteReg_eq_ok {index v : Nat} {s t : State} (h : hostWriteReg index v s = .ok t) :
    index ≤ 7 ∧ v ≤ 32767 ∧ t = s.writeReg (Fin.ofNat 8 index) (BitVec.ofNat 15 v) := by
  unfold hostWriteReg at h
  split at h
  · cases h
  · split at h
    · cases h
    · cases h
      exact ⟨by omega, by omega, rfl⟩

theorem hostAct_keeps_inv {s : State} (h : Inv s) (action : HostAction) : Inv (hostAct s action) := by
  cases action with
  | step =>
    simp only [hostAct]
    cases hstep : step s with
    | next t => exact step_keeps_inv h hstep
    | fault _ => exact h
    | refused _ => exact h
  | writeReg index v =>
    simp only [hostAct]
    cases hwrite : hostWriteReg index v s with
    | ok t =>
      obtain ⟨-, -, rfl⟩ := hostWriteReg_eq_ok hwrite
      exact h.writeReg _ _
    | error _ => exact h
  | deliver bytes => exact h.of_same rfl rfl rfl rfl rfl
  | takeOutput => exact h.of_same rfl rfl rfl rfl rfl

theorem foldl_hostAct_keeps_inv {s : State} (h : Inv s) (actions : List HostAction) :
    Inv (List.foldl hostAct s actions) := by
  induction actions generalizing s with
  | nil => exact h
  | cons action actions ih => exact ih (hostAct_keeps_inv h action)

/-- Settles O55: nothing is listed in memory, and the core runs. -/
theorem resetMeetsInvariant : Obligations.ResetMeetsInvariant :=
  ⟨inv_resetWith _, inv_resetWith⟩

/-- Settles O56: the load writes words of at most 32775 into the reset memory. -/
theorem loadMeetsInvariant : Obligations.LoadMeetsInvariant :=
  fun _ _ _ => load_meets_inv

/-- Settles O59, by induction on the host's actions, from the loaded state. -/
theorem reachableStatesMeetInvariant : Obligations.ReachableStatesMeetInvariant := by
  rintro _ ⟨cfg, bytes, s₀, actions, hload, rfl⟩
  exact foldl_hostAct_keeps_inv (load_meets_inv hload) actions

/-! ## Faults are precise, and only the destination is written -/

/-- Settles O41: a fault of the fetch and a fault of an instruction both change only the status. -/
theorem faultsArePrecise : Obligations.FaultsArePrecise := by
  intro s t f hrun hstep hf
  rcases running_step_cases hrun with ⟨i, rest, hd, he⟩ | ⟨e, hd, he⟩
  · rw [wordAtPc_of_decode hd]
    exact exec_fault_precise hrun (he ▸ hstep) hf
  · obtain ⟨g, rfl, haddr, hword⟩ := raiseDecode_precise hd (he ▸ hstep)
    cases hf
    exact ⟨rfl, haddr, hword⟩

/-- An instruction keeps every register, or every register but the one its destination operand names (R14). -/
theorem exec_regs {i : Instr} {s t : State} (h : exec i s = .next t) :
    RegsKept s t ∨ ∃ r, destReg i = some r ∧ OtherRegsKept r s t := by
  have hend := exec_ending i s
  rw [h] at hend
  cases hend
  case wroteReg r v hr _ => exact .inr ⟨r, hr, fun q hq => State.readReg_writeReg_ne s r q v hq⟩
  case popped r v rest hi _ => exact .inr ⟨r, hi ▸ rfl, fun q hq => State.readReg_writeReg_ne _ r q v hq⟩
  case took r b rest hi _ => exact .inr ⟨r, hi ▸ rfl, fun q hq => State.readReg_writeReg_ne _ r q _ hq⟩
  all_goals exact .inl fun _ => rfl

/-- Settles O32: by how an instruction can end, and by what a host write that is allowed does. -/
theorem onlyNamedRegistersWritten : Obligations.OnlyNamedRegistersWritten := by
  constructor
  · intro i s t q h hne
    rcases exec_regs h with hkept | ⟨r, hr, hothers⟩
    · exact absurd (hkept q) hne
    · obtain rfl : q = r := by_contra fun hq => hne (hothers q hq)
      exact hr
  · intro s t index v q h hne
    obtain ⟨hindex, -, rfl⟩ := hostWriteReg_eq_ok h
    obtain rfl : q = Fin.ofNat 8 index := by_contra fun hq => hne (State.readReg_writeReg_ne s _ q _ hq)
    rw [Fin.val_ofNat]
    omega

end Sys2Proof.Machine

namespace Sys2Proof.Machine

/-! ## What an instruction does not see

A change of the state at places an instruction does not look at is carried along unseen. The three claims of this shape
(a register that no operand names, bytes emitted before, bytes delivered later) are three such changes. -/

/-- The state with its registers and the host's streams changed. -/
def State.alter (s : State) (regs : Vector Val 8 → Vector Val 8) (input output : List Byte → List Byte) : State :=
  { s with regs := regs s.regs, input := input s.input, output := output s.output }

/-- A change of the registers and streams that an instruction with these operands cannot see: the operands have the same
values, a write of a register they name and an emitted byte commute with the change, the oldest delivered byte stays. -/
structure Unseen (operands : List Value) (regs : Vector Val 8 → Vector Val 8) (input output : List Byte → List Byte) :
    Prop where
  resolve : ∀ (s : State), ∀ x ∈ operands, (s.alter regs input output).resolve x = s.resolve x
  set : ∀ (r : RegNum) (v : Val) (file : Vector Val 8), .reg r ∈ operands →
    regs (file.set r v) = (regs file).set r v
  input : ∀ (b : Byte) (rest : List Byte), input (b :: rest) = b :: input rest
  output : ∀ (b : Byte) (bytes : List Byte), output (bytes ++ [b]) = output bytes ++ [b]

/-- When the first outcome is a next state, the second is that state with `f` applied. -/
def Carries (f : State → State) (o o' : Result) : Prop := ∀ t, o = .next t → o' = .next (f t)

theorem Carries.next {f : State → State} (t : State) : Carries f (.next t) (.next (f t)) := by
  rintro _ ⟨⟩; rfl

section
variable {ops : List Value} {regs : Vector Val 8 → Vector Val 8} {input output : List Byte → List Byte}

theorem Unseen.resolve_first {x : Value} (h : Unseen (x :: ops) regs input output) (s : State) :
    (s.alter regs input output).resolve x = s.resolve x := h.resolve s x (by simp)

theorem Unseen.resolve_second {x y : Value} (h : Unseen (x :: y :: ops) regs input output) (s : State) :
    (s.alter regs input output).resolve y = s.resolve y := h.resolve s y (by simp)

theorem Unseen.resolve_third {x y z : Value} (h : Unseen (x :: y :: z :: ops) regs input output) (s : State) :
    (s.alter regs input output).resolve z = s.resolve z := h.resolve s z (by simp)

theorem carries_ite {f : State → State} {p : Prop} [Decidable p] {o₁ o₂ o₁' o₂' : Result} (h₁ : Carries f o₁ o₁')
    (h₂ : Carries f o₂ o₂') : Carries f (if p then o₁ else o₂) (if p then o₁' else o₂') := by
  split
  · exact h₁
  · exact h₂

theorem carries_withDest {code : Word} {a : Value} {s : State} {go go' : RegNum → Result}
    (h : ∀ r, a = .reg r → Carries (·.alter regs input output) (go r) (go' r)) :
    Carries (·.alter regs input output) (withDest code a s go) (withDest code a (s.alter regs input output) go') := by
  cases a with
  | reg r => exact h r rfl
  | lit n => exact .next _

theorem alter_writeReg (h : Unseen ops regs input output) {r : RegNum} (hr : .reg r ∈ ops) (s : State) (v : Val) :
    (s.writeReg r v).alter regs input output = (s.alter regs input output).writeReg r v := by
  simp [State.alter, State.writeReg, h.set r v s.regs hr]

theorem alter_emit (h : Unseen ops regs input output) (s : State) (b : Byte) :
    (s.emit b).alter regs input output = (s.alter regs input output).emit b := by
  simp [State.alter, State.emit, h.output]

/-- An instruction that writes a value into its destination, and moves on. -/
theorem carries_finish_writeReg {r : RegNum} (h : Unseen (.reg r :: ops) regs input output) (n : Nat) (s : State)
    (v : Val) : Carries (·.alter regs input output) (finish n none (s.writeReg r v))
      (finish n none ((s.alter regs input output).writeReg r v)) := by
  rw [← alter_writeReg h List.mem_cons_self]
  exact .next _

theorem carries_execBinary {code : Word} {f : Val → Val → Val} {a b c : Value}
    (h : Unseen [a, b, c] regs input output) (s : State) : Carries (·.alter regs input output)
      (execBinary code f a b c s) (execBinary code f a b c (s.alter regs input output)) := by
  refine carries_withDest ?_
  rintro r rfl
  rw [h.resolve_second s, h.resolve_third s]
  exact carries_finish_writeReg h 4 s _

/-- An instruction carries along what it cannot see. -/
theorem carries_exec {i : Instr} (h : Unseen i.operands regs input output) (s : State) :
    Carries (·.alter regs input output) (exec i s) (exec i (s.alter regs input output)) := by
  cases i with
  | halt => exact .next _
  | set a b =>
    refine carries_withDest ?_
    rintro r rfl
    rw [h.resolve_second s]
    exact carries_finish_writeReg h 3 s _
  | push a =>
    simp only [exec, execPush, h.resolve_first s]
    exact carries_ite (.next _) (.next _)
  | pop a =>
    refine carries_withDest ?_
    rintro r rfl
    obtain ⟨file, mem, stack, pc, status, config, bytes, emitted⟩ := s
    cases stack with
    | nil => exact .next _
    | cons v rest => exact carries_finish_writeReg h 2 ⟨file, mem, rest, _, _, _, _, _⟩ v
  | eq a b c => simp only [exec, execEq]; exact carries_execBinary h s
  | gt a b c => simp only [exec, execGt]; exact carries_execBinary h s
  | jmp a =>
    simp only [exec, execJmp, h.resolve_first s]
    exact .next _
  | jt a b =>
    simp only [exec, execJt, h.resolve_first s, h.resolve_second s]
    exact .next _
  | jf a b =>
    simp only [exec, execJf, h.resolve_first s, h.resolve_second s]
    exact .next _
  | add a b c =>
    simp only [exec, execAdd, h.resolve_second s, h.resolve_third s]
    cases a with
    | reg r => exact carries_finish_writeReg h 4 s _
    | lit n => exact .next _
  | mult a b c => exact carries_execBinary h s
  | mod a b c =>
    refine carries_withDest ?_
    rintro r rfl
    rw [h.resolve_second s, h.resolve_third s]
    exact carries_ite (.next _) (carries_finish_writeReg h 4 s _)
  | and a b c => exact carries_execBinary h s
  | or a b c => exact carries_execBinary h s
  | not a b =>
    refine carries_withDest ?_
    rintro r rfl
    rw [h.resolve_second s]
    exact carries_finish_writeReg h 3 s _
  | rmem a b =>
    refine carries_withDest ?_
    rintro r rfl
    rw [h.resolve_second s]
    exact carries_ite (.next _) (carries_finish_writeReg h 3 s _)
  | wmem a b =>
    simp only [exec, execWmem, h.resolve_first s, h.resolve_second s]
    exact .next _
  | call a =>
    simp only [exec, execCall, h.resolve_first s]
    exact carries_ite (.next _) (carries_ite (.next _) (.next _))
  | ret =>
    obtain ⟨file, mem, stack, pc, status, config, bytes, emitted⟩ := s
    cases stack with
    | nil => exact .next _
    | cons v rest => exact .next _
  | out a =>
    simp only [exec, execOut, h.resolve_first s, ← alter_emit h]
    exact .next _
  | in_ a =>
    refine carries_withDest ?_
    rintro r rfl
    obtain ⟨file, mem, stack, pc, status, config, bytes, emitted⟩ := s
    cases bytes with
    | nil => exact nofun
    | cons b rest =>
      simp only [State.alter, h.input]
      exact carries_finish_writeReg h 2 ⟨file, mem, stack, _, _, _, rest, _⟩ _
  | noop => exact .next _

/-- A fault of the fetch carries along any change of the registers and the streams. -/
theorem carries_raiseDecode (s : State) (e : DecodeError) :
    Carries (·.alter regs input output) (raiseDecode e s) (raiseDecode e (s.alter regs input output)) := by
  cases e with
  | noOpcodeWord => exact .next _
  | badOpcode w => exact .next _
  | truncated w => exact .next _
  | invalidOperand w ow => exact .next _

end

/-- Another value in a register that no operand names is unseen (R14). -/
theorem unseen_writeReg {ops : List Value} {q : RegNum} (hq : .reg q ∉ ops) (v : Val) :
    Unseen ops (·.set q v) id id where
  resolve s x hx := by
    cases x with
    | lit n => rfl
    | reg r => exact State.readReg_writeReg_ne s q r v (by rintro rfl; exact hq hx)
  set r w file hr := by
    have hne : r.val ≠ q.val := fun e => hq (Fin.ext e ▸ hr)
    exact Vector.set_comm _ _ hne
  input _ _ := rfl
  output _ _ := rfl

/-- Bytes emitted earlier are unseen (R87). -/
theorem unseen_earlier_output (ops : List Value) (before : List Byte) : Unseen ops id id (before ++ ·) where
  resolve s x _ := by cases x <;> rfl
  set _ _ _ _ := rfl
  input _ _ := rfl
  output b bytes := (List.append_assoc before bytes [b]).symm

/-- A step carries along what no instruction sees: it fetches from memory, and the registers are as they were. -/
theorem carries_step {input output : List Byte → List Byte} (h : ∀ ops, Unseen ops id input output) (s : State) :
    Carries (·.alter id input output) (step s) (step (s.alter id input output)) := by
  by_cases hrun : s.status = .running
  · rcases running_step_cases hrun with ⟨i, rest, hd, he⟩ | ⟨e, hd, he⟩
    · rw [he, step_of_decode (s := s.alter id input output) hrun hd]
      exact carries_exec (h _) s
    · rw [he, step_of_decode_error (s := s.alter id input output) hrun hd]
      exact carries_raiseDecode s e
  · rw [step_of_not_running hrun, step_of_not_running (s := s.alter id input output) hrun]
    exact .next _

/-- Settles O33: a change of a register that no operand names is one the instruction cannot see, and is carried along. -/
theorem unnamedRegistersNotRead : Obligations.UnnamedRegistersNotRead :=
  fun _ s t _ v hq h => carries_exec (unseen_writeReg hq v) s t h

/-- Settles O38: earlier output is a change that no instruction sees and the fetch does not read. -/
theorem outputIsNeverRead : Obligations.OutputIsNeverRead :=
  fun s t before h => carries_step (fun ops => unseen_earlier_output ops before) s t h

end Sys2Proof.Machine

namespace Sys2Proof.Machine

/-! ## Memory changes only by a store -/

/-- An instruction keeps memory, or stores a value at its store address and keeps the other cells (R30). -/
theorem exec_mem {i : Instr} {s t : State} (h : exec i s = .next t) :
    MemKept s t ∨ ∃ (a v : Val), storeAddress s i = some a ∧ t.readMem a = v.toWord ∧ OtherMemKept a s t := by
  have hend := exec_ending i s
  rw [h] at hend
  cases hend
  case stored a v ha _ =>
    refine .inr ⟨a, v, ha, ?_, fun b hb => ?_⟩
    · rw [State.readMem_route, State.readMem_writeMem, if_pos rfl]
    · rw [State.readMem_route, State.readMem_writeMem, if_neg hb]
  all_goals exact .inl fun _ => rfl

/-- Settles O34: a cell that changed is the one stored to, and a stored value has 15 bits. -/
theorem onlyStoresChangeMemory : Obligations.OnlyStoresChangeMemory := by
  intro i s t a h hne
  rcases exec_mem h with hkept | ⟨b, v, hb, hstored, hothers⟩
  · exact absurd (hkept a) hne
  · obtain rfl : a = b := by_contra fun hab => hne (hothers a hab)
    rw [hstored, Val.toNat_toWord]
    exact ⟨hb, Nat.le_of_lt_succ v.isLt⟩

/-! ## What a successful load leaves in memory -/

theorem length_wordsOfBytes : ∀ bytes : List Byte, (wordsOfBytes bytes).length = bytes.length / 2
  | [] => rfl
  | [_] => by simp [wordsOfBytes]
  | _ :: _ :: rest => by
    simp only [wordsOfBytes, List.length_cons, length_wordsOfBytes rest]
    omega

/-- Two bytes make a word without loss (R28). -/
theorem toNat_littleEndian (lo hi : Byte) :
    (BitVec.ofNat 16 (lo.toNat + 256 * hi.toNat)).toNat = lo.toNat + 256 * hi.toNat := by
  have := lo.isLt
  have := hi.isLt
  rw [BitVec.toNat_ofNat, Nat.mod_eq_of_lt (by omega)]

/-- Word i of a file is `bytes[2i] + 256 × bytes[2i+1]` (R28). -/
theorem toNat_getD_wordsOfBytes : ∀ {bytes : List Byte} {i : Nat}, 2 * i + 1 < bytes.length →
    ((wordsOfBytes bytes).getD i 0).toNat = (bytes.getD (2 * i) 0).toNat + 256 * (bytes.getD (2 * i + 1) 0).toNat
  | lo :: hi :: _, 0, _ => toNat_littleEndian lo hi
  | _ :: _ :: rest, i + 1, h =>
    toNat_getD_wordsOfBytes (bytes := rest) (i := i) (Nat.lt_of_succ_lt_succ (Nat.lt_of_succ_lt_succ h))
  | [_], _, h => by simp at h

/-- A file that loads has an even number of bytes (R112). -/
theorem length_even_of_load_eq_ok {cfg : Config} {bytes : List Byte} {s : State} (h : load cfg bytes = .ok s) :
    bytes.length % 2 = 0 := by
  unfold load at h
  split at h
  · cases h
  · omega

/-- Each cell of a loaded core holds the file's word, 0 past the last one (R113). -/
theorem read_of_load_eq_ok {cfg : Config} {bytes : List Byte} {s : State} (h : load cfg bytes = .ok s) (i : Nat) :
    s.mem.read i = (wordsOfBytes bytes).getD i 0 := by
  obtain ⟨hlen, -, rfl⟩ := load_eq_ok h
  exact (Memory.read_writeWords [] 0 _ i (by omega)).trans (if_pos (Nat.zero_le i))

/-- Settles O49: a cell reads a word of the file, and word i is read off the bytes 2i and 2i + 1. -/
theorem loadPutsWordsFromZero : Obligations.LoadPutsWordsFromZero := by
  intro cfg bytes s h
  have heven := length_even_of_load_eq_ok h
  have hwords := length_wordsOfBytes bytes
  obtain ⟨hlen, -, hs⟩ := load_eq_ok h
  unfold memWords at hlen
  refine ⟨heven, by omega, fun i hi => ?_, fun i hi => ?_, ?_⟩
  · rw [read_of_load_eq_ok h, toNat_getD_wordsOfBytes (by omega)]
  · rw [read_of_load_eq_ok h, List.getD_eq_default _ _ (by omega)]
  · rw [hs]

end Sys2Proof.Machine

namespace Sys2Proof

/-! ## The value model and the arities -/

/-- Settles O1: the three classes are the three branches of `decodeValue`. -/
theorem wordsDecodeByClass : Obligations.WordsDecodeByClass := by
  intro w
  refine ⟨fun hlit => ⟨_, if_pos hlit, ?_⟩, fun hlow hreg => ⟨Fin.ofNat 8 (w.toNat - 32768), ?_, ?_⟩,
    fun hbad => decodeValue_eq_none.mpr hbad⟩
  · rw [BitVec.toNat_setWidth]
    omega
  · rw [decodeValue, if_neg (by omega), if_pos hreg]
  · rw [Fin.val_ofNat]
    omega

/-- An arity shared by a list of opcode numbers is that of every word with one of these numbers. -/
theorem arityOf_eq_of_toNat_mem {codes : List Nat} {n : Nat} (h : ∀ k ∈ codes, arityOf (BitVec.ofNat 16 k) = n)
    {w : Word} (hw : w.toNat ∈ codes) : arityOf w = n := by
  have hn := h _ hw
  rwa [BitVec.ofNat_toNat, BitVec.setWidth_eq] at hn

/-- An instruction is its opcode word and as many words as the arity of that word (R43, R46). -/
theorem Instr.length_eq (i : Instr) : i.length = 1 + arityOf i.code := by
  rw [arityOf_code, Instr.length, encode, List.length_cons, List.length_map, Nat.add_comm]

/-- An opcode word at most 21 has a format, whose arity is the word's (R44, R45). -/
theorem opcodeMap_of_le {w : Word} (h : w.toNat ≤ 21) : ∃ f, opcodeMap w = some f ∧ arityOf w = f.arity := by
  cases hw : opcodeMap w with
  | none => exact absurd (opcodeMap_eq_none.mp hw) (Nat.not_lt_of_le h)
  | some f => exact ⟨f, rfl, by rw [arityOf, hw]⟩

/-- Settles O2: the partition is read off the opcode map, one group of codes at a time. -/
theorem arityIsFixedByOpcode : Obligations.ArityIsFixedByOpcode :=
  ⟨fun _ => arityOf_eq_of_toNat_mem (by decide), fun _ => arityOf_eq_of_toNat_mem (by decide),
    fun _ => arityOf_eq_of_toNat_mem (by decide), fun _ => arityOf_eq_of_toNat_mem (by decide), Instr.length_eq⟩

/-- Settles O3, by running the decoder. -/
theorem writtenWordsDecode : Obligations.WrittenWordsDecode :=
  ⟨rfl, rfl, rfl, rfl, rfl, rfl, rfl, rfl, rfl, rfl, rfl, rfl⟩

/-! ## The decoder, one equation per format and one per check -/

section
variable {w : Word} {rest : List Word}

theorem decode_f0 {i : Instr} (hw : opcodeMap w = some (.f0 i)) : decode (w :: rest) = .ok (i, rest) := by
  simp only [decode, hw]

theorem decode_f1 {mk : Value → Instr} (hw : opcodeMap w = some (.f1 mk)) (a : Value) :
    decode (w :: encodeValue a :: rest) = .ok (mk a, rest) := by
  simp only [decode, hw, decodeValue_encodeValue]

theorem decode_f2 {mk : Value → Value → Instr} (hw : opcodeMap w = some (.f2 mk)) (a b : Value) :
    decode (w :: encodeValue a :: encodeValue b :: rest) = .ok (mk a b, rest) := by
  simp only [decode, hw, decodeValue_encodeValue]

theorem decode_f3 {mk : Value → Value → Value → Instr} (hw : opcodeMap w = some (.f3 mk)) (a b c : Value) :
    decode (w :: encodeValue a :: encodeValue b :: encodeValue c :: rest) = .ok (mk a b c, rest) := by
  simp only [decode, hw, decodeValue_encodeValue]

/-- Check 2 of R96: the opcode word names no opcode. -/
theorem decode_badOpcode (hw : opcodeMap w = none) : decode (w :: rest) = .error (.badOpcode w) := by
  simp only [decode, hw]

/-- Check 3 of R96: there are fewer words than the format has operands. -/
theorem decode_truncated {f : Format} (hw : opcodeMap w = some f) (hlen : rest.length < f.arity) :
    decode (w :: rest) = .error (.truncated w) := by
  cases f with
  | f0 i => exact absurd hlen (Nat.not_lt_zero _)
  | f1 mk =>
    match rest with
    | [] => simp only [decode, hw]
    | _ :: _ => exact absurd hlen (by simp [Format.arity])
  | f2 mk =>
    match rest with
    | [] | [_] => simp only [decode, hw]
    | _ :: _ :: _ => exact absurd hlen (by simp [Format.arity])
  | f3 mk =>
    match rest with
    | [] | [_] | [_, _] => simp only [decode, hw]
    | _ :: _ :: _ :: _ => exact absurd hlen (by simp [Format.arity])

/-- The first word that decodes to nothing (R48). -/
def firstUndecodable (ws : List Word) : Option Word := ws.find? fun x => (decodeValue x).isNone

/-- The first undecodable word is the head, or the head decodes and it is the first of the tail. -/
theorem firstUndecodable_cons {a ow : Word} {ws : List Word} (h : firstUndecodable (a :: ws) = some ow) :
    (decodeValue a = none ∧ a = ow) ∨ ∃ v, decodeValue a = some v ∧ firstUndecodable ws = some ow := by
  cases ha : decodeValue a with
  | none => exact .inl ⟨rfl, by simpa [firstUndecodable, ha] using h⟩
  | some v => exact .inr ⟨v, rfl, by simpa [firstUndecodable, ha] using h⟩

/-- Check 4 of R96: the operand words are there, and `ow` is the first of them that decodes to nothing. -/
theorem decode_invalidOperand {f : Format} (hw : opcodeMap w = some f) {ops : List Word}
    (hlen : ops.length = f.arity) {ow : Word} (hbad : firstUndecodable ops = some ow) :
    decode (w :: (ops ++ rest)) = .error (.invalidOperand w ow) := by
  cases f with
  | f0 i =>
    obtain rfl := List.length_eq_zero_iff.mp hlen
    cases hbad
  | f1 mk =>
    obtain ⟨a, rfl⟩ := List.length_eq_one_iff.mp hlen
    obtain ⟨ha, rfl⟩ | ⟨_, _, hnone⟩ := firstUndecodable_cons hbad
    · simp only [List.cons_append, decode, hw, ha]
    · cases hnone
  | f2 mk =>
    obtain ⟨a, b, rfl⟩ := List.length_eq_two.mp hlen
    obtain ⟨ha, rfl⟩ | ⟨va, ha, hbad⟩ := firstUndecodable_cons hbad
    · simp only [List.cons_append, decode, hw, ha]
    obtain ⟨hb, rfl⟩ | ⟨_, _, hnone⟩ := firstUndecodable_cons hbad
    · simp only [List.cons_append, decode, hw, ha, hb]
    · cases hnone
  | f3 mk =>
    obtain ⟨a, b, c, rfl⟩ := List.length_eq_three.mp hlen
    obtain ⟨ha, rfl⟩ | ⟨va, ha, hbad⟩ := firstUndecodable_cons hbad
    · simp only [List.cons_append, decode, hw, ha]
    obtain ⟨hb, rfl⟩ | ⟨vb, hb, hbad⟩ := firstUndecodable_cons hbad
    · simp only [List.cons_append, decode, hw, ha, hb]
    obtain ⟨hc, rfl⟩ | ⟨_, _, hnone⟩ := firstUndecodable_cons hbad
    · simp only [List.cons_append, decode, hw, ha, hb, hc]
    · cases hnone

end

/-- The decoder gives an encoded instruction back and leaves the words after it (R42, R43, R45). -/
theorem decode_encode (i : Instr) (rest : List Word) : decode (encode i ++ rest) = .ok (i, rest) := by
  cases i
  case halt | ret | noop => exact decode_f0 rfl
  case push a | pop a | jmp a | call a | out a | in_ a => exact decode_f1 rfl a
  case set a b | jt a b | jf a b | not a b | rmem a b | wmem a b => exact decode_f2 rfl a b
  case eq a b c | gt a b c | add a b c | mult a b c | mod a b c | and a b c | or a b c => exact decode_f3 rfl a b c

/-- Settles O4, by the format of the instruction's opcode word. -/
theorem decodeOfEncode : Obligations.DecodeOfEncode := decode_encode

/-- Settles O5, by the branches of the decoder: each format makes instructions with the code and the operands read. -/
theorem encodeOfDecode : Obligations.EncodeOfDecode := fun _ _ _ => eq_encode_of_decode

end Sys2Proof

namespace Sys2Proof.Machine

/-! ## The fetch at `pc`: what it reads, and the faults it can take -/

/-- The words read from `a` upward are the cells from `a` on, up to the top of memory (R50, R58). -/
theorem Memory.readWords_eq_map (m : Memory) (a n : Nat) :
    m.readWords a n = (List.range' a (min n (memWords - a))).map m.read := by
  induction n generalizing a with
  | zero => simp [Memory.readWords]
  | succ n ih =>
    unfold Memory.readWords
    split
    · have hmin : min (n + 1) (memWords - a) = min n (memWords - (a + 1)) + 1 := by omega
      rw [ih, hmin, List.range'_succ, List.map_cons]
    · have hmin : min (n + 1) (memWords - a) = 0 := by omega
      rw [hmin, List.range'_zero, List.map_nil]

theorem Memory.length_readWords (m : Memory) (a n : Nat) : (m.readWords a n).length = min n (memWords - a) := by
  rw [Memory.readWords_eq_map, List.length_map, List.length_range']

/-- Inside memory the fetch reads the opcode word and then its operand words (R58). -/
theorem State.fetch_of_lt {s : State} (h : s.pc.toNat < memWords) :
    s.fetch = s.mem.read s.pc.toNat :: s.mem.readWords (s.pc.toNat + 1) (arityOf (s.mem.read s.pc.toNat)) :=
  if_pos h

/-- Past the top of memory the fetch reads nothing (R50). -/
theorem State.fetch_of_le {s : State} (h : memWords ≤ s.pc.toNat) : s.fetch = [] :=
  if_neg (Nat.not_lt_of_le h)

/-- The words of an instruction that stand at `pc`, inside memory, are the words fetched (R43, R58). -/
theorem State.fetch_eq_encode {s : State} {i : Instr} (hfit : s.pc.toNat + i.length ≤ memWords)
    (hwords : ∀ k, k < i.length → (encode i)[k]? = some (s.mem.read (s.pc.toNat + k))) : s.fetch = encode i := by
  have hlen := i.length_eq
  have hcode : s.mem.read s.pc.toNat = i.code := (Option.some.inj (hwords 0 (by omega))).symm
  have hfetch : s.fetch = (List.range' s.pc.toNat i.length).map s.mem.read := by
    rw [State.fetch_of_lt (by omega), Memory.readWords_eq_map, hcode, Nat.min_eq_left (by omega), hlen, Nat.add_comm 1,
      List.range'_succ, List.map_cons, hcode]
  rw [hfetch]
  refine List.ext_getElem (by simp [Instr.length]) fun k hk hk' => ?_
  have hword := hwords k hk'
  rw [List.getElem?_eq_getElem hk'] at hword
  simpa using (Option.some.inj hword).symm

/-- Settles O7: what stands at `pc` is what is fetched, and it decodes to the instruction. -/
theorem wordsAtPcAreExecuted : Obligations.WordsAtPcAreExecuted := by
  intro s i hrun hfit hwords
  have hd : decode (encode i ++ []) = .ok (i, []) := decode_encode i []
  rw [List.append_nil, ← State.fetch_eq_encode hfit hwords] at hd
  exact step_of_decode hrun hd

/-- A step that takes a fault raises it (R95). -/
theorem exists_raised_of_step {s : State} {kind : FaultKind} {word : Option Word} {detail : Detail}
    (h : step s = raise kind word detail s) : ∃ t, step s = .next t ∧ Raised s t kind word detail :=
  ⟨_, h, raised_of_raise rfl⟩

/-- Of the words read, the first that decodes to nothing is the lowest cell above 32775 (R48, R96). -/
theorem firstUndecodable_readWords {m : Memory} {a n b : Nat} (hfit : a + n ≤ memWords) (hab : a ≤ b)
    (hbn : b < a + n) (hgood : ∀ j, a ≤ j → j < b → (m.read j).toNat ≤ maxValidWord)
    (hbad : maxValidWord < (m.read b).toNat) :
    firstUndecodable (m.readWords a n) = some (m.read b) := by
  have hfind : (List.range' a n).find? (fun j => (decodeValue (m.read j)).isNone) = some b := by
    simp only [List.find?_range'_eq_some, Option.isNone_iff_eq_none, decodeValue_eq_none, List.mem_range'_1,
      Bool.not_eq_true', Option.isNone_eq_false_iff, Option.isSome_iff_ne_none, ne_eq, Nat.not_lt]
    exact ⟨hbad, ⟨hab, hbn⟩, hgood⟩
  rw [firstUndecodable, Memory.readWords_eq_map, Nat.min_eq_left (by omega), List.find?_map]
  exact congrArg (Option.map m.read) hfind

/-- Check 3 of R96 on the fetch: the instruction does not end inside memory. -/
theorem decode_fetch_truncated {s : State} (hpc : s.pc.toNat < memWords) (hop : (s.mem.read s.pc.toNat).toNat ≤ 21)
    (hend : memWords ≤ s.pc.toNat + arityOf (s.mem.read s.pc.toNat)) :
    decode s.fetch = .error (.truncated (s.mem.read s.pc.toNat)) := by
  obtain ⟨f, hf, harity⟩ := opcodeMap_of_le hop
  rw [State.fetch_of_lt hpc]
  refine decode_truncated hf ?_
  rw [Memory.length_readWords, ← harity]
  omega

/-- Check 4 of R96 on the fetch: the instruction ends inside memory, and `b` is the lowest address of an operand word
above 32775. -/
theorem decode_fetch_invalidOperand {s : State} {b : Nat} (hop : (s.mem.read s.pc.toNat).toNat ≤ 21)
    (hend : s.pc.toNat + arityOf (s.mem.read s.pc.toNat) < memWords) (hlow : s.pc.toNat < b)
    (hhigh : b ≤ s.pc.toNat + arityOf (s.mem.read s.pc.toNat))
    (hgood : ∀ j, s.pc.toNat < j → j < b → (s.mem.read j).toNat ≤ maxValidWord)
    (hbad : maxValidWord < (s.mem.read b).toNat) :
    decode s.fetch = .error (.invalidOperand (s.mem.read s.pc.toNat) (s.mem.read b)) := by
  obtain ⟨f, hf, harity⟩ := opcodeMap_of_le hop
  rw [State.fetch_of_lt (by omega), ← List.append_nil (s.mem.readWords _ _)]
  refine decode_invalidOperand hf ?_ (firstUndecodable_readWords (by omega) hlow (by omega) hgood hbad)
  rw [Memory.length_readWords, ← harity]
  omega

/-- Settles O8, check by check: each decides what the decoder answers for the words fetched. -/
theorem fetchFaultsInOrder : Obligations.FetchFaultsInOrder := by
  intro s hrun
  refine ⟨fun hpc => ?_, fun hpc hop => ?_, fun hpc hop hend => ?_, fun hpc hop hend k hk hk' hgood hbad => ?_⟩
  · have hd : decode s.fetch = .error .noOpcodeWord := by rw [State.fetch_of_le hpc, decode]
    exact exists_raised_of_step (step_of_decode_error hrun hd)
  · have hd : decode s.fetch = .error (.badOpcode (s.mem.read s.pc.toNat)) := by
      rw [State.fetch_of_lt (Nat.lt_succ_of_le hpc), decode_badOpcode (opcodeMap_eq_none.mpr hop)]
    exact exists_raised_of_step (step_of_decode_error hrun hd)
  · have hd := decode_fetch_truncated (Nat.lt_succ_of_le hpc) hop hend
    exact exists_raised_of_step (step_of_decode_error hrun hd)
  · have hgood' : ∀ j, s.pc.toNat < j → j < s.pc.toNat + k → (s.mem.read j).toNat ≤ maxValidWord := by
      intro j hlow hhigh
      have hj := hgood (j - s.pc.toNat) (by omega) (by omega)
      rwa [Nat.add_sub_cancel' hlow.le] at hj
    have hd := decode_fetch_invalidOperand hop (Nat.lt_succ_of_le hend) (by omega) (by omega) hgood' hbad
    exact exists_raised_of_step (step_of_decode_error hrun hd)

end Sys2Proof.Machine

namespace Sys2Proof.Machine

/-! ## The step's engine: where `pc` goes, which step has no transition, and what a step reports -/

/-- Where an instruction leaves `pc`, with the status it leaves (R64, R65): a fault keeps `pc`, a designed halt advances
it, and else the router moves it, to a target only for an instruction that may set it. -/
theorem exec_pc_status {i : Instr} {s t : State} (h : exec i s = .next t) :
    (Faulted t ∧ t.pc = s.pc) ∨
      (∃ reason, t.status = .halted reason ∧ t.pc = s.pc + BitVec.ofNat 16 i.length) ∨
      ∃ j, (maySetPc i = true ∨ j = none) ∧ t.pc = nextPc s.pc i.length j ∧ t.status = s.status := by
  have hend := exec_ending i s
  rw [h] at hend
  cases hend
  case badDest | regref | divZero | bounds | overflow => exact .inl ⟨⟨_, rfl⟩, rfl⟩
  case halted | popEmpty | retEmpty => exact .inr (.inl ⟨_, rfl, rfl⟩)
  case wroteReg | stored | pushed | popped | emitted | took => exact .inr (.inr ⟨none, .inr rfl, rfl, rfl⟩)
  case called a hi _ _ => exact .inr (.inr ⟨some _, .inl (hi ▸ rfl), rfl, rfl⟩)
  case returned v rest hi _ => exact .inr (.inr ⟨some v, .inl (hi ▸ rfl), rfl, rfl⟩)
  case moved j hj => exact .inr (.inr ⟨j, hj, rfl, rfl⟩)

/-- Settles O36, by how the instruction ends and, where the router moves `pc`, by whether the jumped flag is set. -/
theorem routerChoosesNextPc : Obligations.RouterChoosesNextPc := by
  intro i s t hrun h
  rcases exec_pc_status h with hfault | ⟨reason, hhalt, hpc⟩ | ⟨j, hj, hpc, hstatus⟩
  · exact .inl hfault
  · exact .inr (.inl ⟨by simp [Faulted, hhalt], hpc⟩)
  · have hrun' : t.status = .running := hstatus.trans hrun
    cases j with
    | none => exact .inr (.inl ⟨by simp [Faulted, hrun'], hpc⟩)
    | some v => exact .inr (.inr ⟨hj.resolve_right nofun, hrun', v, hpc⟩)

/-- The only instruction without a transition is `in` to a register with no byte delivered (R89). -/
theorem eq_in_of_exec_eq_fault {i : Instr} {s : State} {f : Fault} (h : exec i s = .fault f) :
    s.input = [] ∧ ∃ r, i = .in_ (.reg r) := by
  have hend := exec_ending i s
  rw [h] at hend
  cases hend with
  | held r hi hinput => exact ⟨hinput, r, hi⟩

theorem exec_ne_refused (i : Instr) (s : State) (m : Refusal) : exec i s ≠ .refused m := by
  intro h
  have hend := exec_ending i s
  rw [h] at hend
  cases hend

/-- `in` to a register with no byte delivered holds (R89). -/
theorem exec_in_eq_fault {s : State} (r : RegNum) (h : s.input = []) :
    exec (.in_ (.reg r)) s = .fault .inputHold := by
  simp only [exec, execIn, withDest, h]

/-- `in` to a register takes the oldest byte delivered (R91). -/
theorem exec_in_eq_finish {s : State} (r : RegNum) {b : Byte} {rest : List Byte} (h : s.input = b :: rest) :
    exec (.in_ (.reg r)) s = finish 2 none (({ s with input := rest } : State).writeReg r (b.setWidth 15)) := by
  simp only [exec, execIn, withDest, h]

/-- A fault of the fetch is a next state, never a missing transition (R54). -/
theorem exists_raiseDecode_eq_next (e : DecodeError) (s : State) : ∃ t, raiseDecode e s = .next t := by
  cases e <;> exact ⟨_, rfl⟩

/-- A step has a next state, or it is a running core's instruction: a stopped core and a fault of the fetch have one. -/
theorem step_next_or_exec (s : State) :
    (∃ t, step s = .next t) ∨
      ∃ i rest, s.status = .running ∧ decode s.fetch = .ok (i, rest) ∧ step s = exec i s := by
  by_cases hrun : s.status = .running
  · rcases running_step_cases hrun with ⟨i, rest, hd, he⟩ | ⟨e, -, he⟩
    · exact .inr ⟨i, rest, hrun, hd, he⟩
    · exact .inl (he ▸ exists_raiseDecode_eq_next e s)
  · exact .inl ⟨s, step_of_not_running hrun⟩

/-- A delivered byte lifts the hold: `in` then takes it, since the fetch does not look at the input (R58, R89). -/
theorem step_hostDeliver_of_in {s : State} {r : RegNum} {rest : List Word} (hrun : s.status = .running)
    (hinput : s.input = []) (hd : decode s.fetch = .ok (.in_ (.reg r), rest)) (b : Byte) (bs : List Byte) :
    step (hostDeliver (b :: bs) s) =
      finish 2 none (({ s with input := bs } : State).writeReg r (b.setWidth 15)) := by
  have hdelivered : (hostDeliver (b :: bs) s).input = b :: bs := by simp [hostDeliver, hinput]
  rw [step_of_decode (s := hostDeliver (b :: bs) s) hrun hd, exec_in_eq_finish r hdelivered]
  rfl

/-- Settles O40: a step has no next state only by its instruction, and of the instructions only `in` can hold. -/
theorem onlyInHolds : Obligations.OnlyInHolds := by
  refine ⟨fun s f h => ?_, fun s r rest hrun hinput hd => ⟨?_, fun b bs => ?_⟩, fun s m h => ?_⟩
  · rcases step_next_or_exec s with ⟨t, ht⟩ | ⟨i, rest, hrun, hd, he⟩
    · exact nomatch ht.symm.trans h
    · obtain ⟨hinput, r, rfl⟩ := eq_in_of_exec_eq_fault (he ▸ h)
      exact ⟨hrun, hinput, r, rest, hd⟩
  · rw [step_of_decode hrun hd, exec_in_eq_fault r hinput]
  · refine ⟨_, step_hostDeliver_of_in hrun hinput hd b bs, ?_, rfl, rfl⟩
    rw [State.readReg_route, State.readReg_writeReg_self, BitVec.toNat_setWidth_of_le (by decide)]
  · rcases step_next_or_exec s with ⟨t, ht⟩ | ⟨i, rest, -, -, he⟩
    · exact nomatch ht.symm.trans h
    · exact exec_ne_refused i s m (he ▸ h)

/-- Settles O6: it is the decoding branch of the step. -/
theorem stepRunsTheDecodedInstruction : Obligations.StepRunsTheDecodedInstruction :=
  fun _ _ _ => step_of_decode

/-- Settles O52, by the three statuses the report is read from. -/
theorem reportFollowsStatus : Obligations.ReportFollowsStatus := by
  intro s
  unfold State.report
  cases s.status with
  | running => simp
  | halted reason => simp
  | error record => simp

end Sys2Proof.Machine

namespace Sys2Proof.Machine

/-! ## Jumps and `noop`: only the router acts -/

/-- Routing writes `pc` alone, so beside a new stack nothing else changes (R65). -/
theorem State.movedTo_route (s : State) (stack : List Val) (n : Nat) (j : Option Val) :
    MovedTo s (({ s with stack := stack } : State).route n j) stack (nextPc s.pc n j) where
  stack := rfl
  pc := rfl
  regs _ := rfl
  mem _ := rfl
  status := rfl
  streams := ⟨rfl, rfl, rfl⟩

/-- An instruction that ends in the router, with or without a new stack, changes the stack and `pc` alone. -/
theorem exists_movedTo_of_exec {i : Instr} {s : State} {stack : List Val} {n : Nat} {j : Option Val}
    (h : exec i s = finish n j { s with stack := stack }) :
    ∃ t, exec i s = .next t ∧ MovedTo s t stack (nextPc s.pc n j) :=
  ⟨_, h, s.movedTo_route stack n j⟩

theorem exec_jmp (a : Value) (s : State) : exec (.jmp a) s = finish 2 (some (s.resolve a)) s := rfl

theorem exec_noop (s : State) : exec .noop s = finish 1 none s := rfl

/-- The conditions of `jt` and `jf` are read as numbers (R68, R69). -/
theorem Val.eq_zero_iff {v : Val} : v = 0 ↔ v.toNat = 0 := BitVec.toNat_inj.symm

theorem exec_jt (a b : Value) (s : State) :
    exec (.jt a b) s = finish 3 (if (s.resolve a).toNat = 0 then none else some (s.resolve b)) s := by
  simp only [exec, execJt, ne_eq, ite_not, Val.eq_zero_iff]

theorem exec_jf (a b : Value) (s : State) :
    exec (.jf a b) s = finish 3 (if (s.resolve a).toNat = 0 then some (s.resolve b) else none) s := by
  simp only [exec, execJf, Val.eq_zero_iff]

/-- Settles O11: the router is given the resolved target. -/
theorem jmpGoesToTarget : Obligations.JmpGoesToTarget :=
  ⟨fun s a => exists_movedTo_of_exec (exec_jmp a s), fun _ => rfl⟩

/-- Settles O12: the router is given no target where the condition is zero, else the resolved one. -/
theorem jtJumpsOnNonzero : Obligations.JtJumpsOnNonzero := by
  refine ⟨fun s a b => ?_, fun _ _ => rfl⟩
  have hmoved := exists_movedTo_of_exec (exec_jt a b s)
  rw [apply_ite (nextPc s.pc 3), nextPc_none, nextPc_some] at hmoved
  exact hmoved

/-- Settles O13: the router is given the resolved target where the condition is zero, else none. -/
theorem jfJumpsOnZero : Obligations.JfJumpsOnZero := by
  refine ⟨fun s a b => ?_, fun _ _ => rfl⟩
  have hmoved := exists_movedTo_of_exec (exec_jf a b s)
  rw [apply_ite (nextPc s.pc 3), nextPc_none, nextPc_some] at hmoved
  exact hmoved

/-- Settles O16: the router is given no target. -/
theorem noopOnlyAdvances : Obligations.NoopOnlyAdvances :=
  ⟨fun s => exists_movedTo_of_exec (exec_noop s), rfl⟩

end Sys2Proof.Machine

namespace Sys2Proof.Machine

/-! ## Register and memory transfer: `set` and `wmem` -/

/-- Writing a register and then moving `pc` past the instruction changes nothing else (R63, R65). -/
theorem State.wroteReg_route (s : State) (r : RegNum) (v : Val) (n : Nat) :
    WroteReg s ((s.writeReg r v).route n none) r v.toNat n where
  value := by rw [State.readReg_route, State.readReg_writeReg_self]
  others q hq := State.readReg_writeReg_ne s r q v hq
  mem _ := rfl
  stack := rfl
  pc := rfl
  status := rfl
  streams := ⟨rfl, rfl, rfl⟩

/-- Storing to a cell and then moving `pc` past the instruction changes nothing else (R30, R65). -/
theorem State.wroteMem_route (s : State) (a v : Val) (n : Nat) :
    WroteMem s ((s.writeMem a v).route n none) a v.toNat n where
  value := by rw [State.readMem_route, State.readMem_writeMem, if_pos rfl, Val.toNat_toWord]
  others b hb := by rw [State.readMem_route, State.readMem_writeMem, if_neg hb]
  regs _ := rfl
  stack := rfl
  pc := rfl
  status := rfl
  streams := ⟨rfl, rfl, rfl⟩

/-- An instruction that ends by writing one register has the frame of a register write. -/
theorem exists_wroteReg_of_exec {i : Instr} {s : State} {r : RegNum} {v : Val} {n : Nat}
    (h : exec i s = finish n none (s.writeReg r v)) :
    ∃ t, exec i s = .next t ∧ WroteReg s t r v.toNat n :=
  ⟨_, h, s.wroteReg_route r v n⟩

/-- An instruction that ends by storing to one cell has the frame of a store. -/
theorem exists_wroteMem_of_exec {i : Instr} {s : State} {a v : Val} {n : Nat}
    (h : exec i s = finish n none (s.writeMem a v)) :
    ∃ t, exec i s = .next t ∧ WroteMem s t a v.toNat n :=
  ⟨_, h, s.wroteMem_route a v n⟩

/-- An instruction that checks a literal as its destination raises DEST_NOT_REGISTER, whatever it would go on to do
(R49). -/
theorem exists_raisedDest_of_exec {i : Instr} {s : State} {code : Word} {n : Val} {go : RegNum → Result}
    (h : exec i s = withDest code (.lit n) s go) :
    ∃ t, exec i s = .next t ∧ RaisedDest s t code n :=
  ⟨_, h, raised_of_raise rfl⟩

/-- `set` is a register write behind the destination check (R73). -/
theorem exec_set (a b : Value) (s : State) :
    exec (.set a b) s = withDest 1 a s fun r => finish 3 none (s.writeReg r (s.resolve b)) := rfl

/-- `wmem` has no destination check: both operands are values (R75). -/
theorem exec_wmem (a b : Value) (s : State) :
    exec (.wmem a b) s = finish 3 none (s.writeMem (s.resolve a) (s.resolve b)) := rfl

/-- Settles O17, by the destination check: a register is written with the resolved value, a literal faults. -/
theorem setWritesValue : Obligations.SetWritesValue := by
  refine ⟨fun s r b => ?register, fun s n b => ?literal, fun _ _ => rfl⟩
  case register => exact exists_wroteReg_of_exec (exec_set (.reg r) b s)
  case literal => exact exists_raisedDest_of_exec (exec_set (.lit n) b s)

/-- Settles O19: every form of both operands ends in the same store, of the resolved value at the resolved address. -/
theorem wmemStoresValue : Obligations.WmemStoresValue :=
  ⟨fun s a b => exists_wroteMem_of_exec (exec_wmem a b s), fun _ _ => rfl⟩

end Sys2Proof.Machine

namespace Sys2Proof.Machine

/-! ## Arithmetic, logic and comparison -/

/-! ### The computed values as numbers -/

theorem toNat_truthVal_decide (p : Prop) [Decidable p] : (truthVal (decide p)).toNat = if p then 1 else 0 := by
  by_cases h : p <;> simp [truthVal, h]

theorem toNat_aluAdd (b c : Val) : (aluAdd b c).toNat = (b.toNat + c.toNat) % 32768 := by
  rw [aluAdd, BitVec.toNat_ofNat, Nat.mod_mod]

theorem toNat_aluMult (b c : Val) : (aluMult b c).toNat = (b.toNat * c.toNat) % 32768 := by
  rw [aluMult, BitVec.toNat_ofNat, Nat.mod_mod]

/-- The two readings of R86: flipping all 15 bits of a value is subtracting it from 32767. -/
theorem toNat_xor_ones (v : Val) : (v ^^^ 0x7FFF).toNat = 32767 - v.toNat := by
  have hones : (0x7FFF : Val) = BitVec.allOnes 15 := by decide
  rw [hones, BitVec.xor_allOnes, BitVec.toNat_not]

/-! ### How the instructions end -/

/-- A three-operand instruction with a register destination writes its computed value there and nothing else. -/
theorem exists_wroteReg_of_execBinary {i : Instr} {s : State} {code : Word} {f : Val → Val → Val} {r : RegNum}
    {b c : Value} {n : Nat} (h : exec i s = execBinary code f (.reg r) b c s)
    (hn : (f (s.resolve b) (s.resolve c)).toNat = n) : ∃ t, exec i s = .next t ∧ WroteReg s t r n 4 :=
  hn ▸ exists_wroteReg_of_exec h

theorem exec_eq (a b c : Value) (s : State) :
    exec (.eq a b c) s = execBinary 4 (fun x y => truthVal (decide (x = y))) a b c s := rfl

theorem exec_mult (a b c : Value) (s : State) : exec (.mult a b c) s = execBinary 10 aluMult a b c s := rfl

theorem exec_and (a b c : Value) (s : State) : exec (.and a b c) s = execBinary 12 (fun x y => x &&& y) a b c s := rfl

theorem exec_or (a b c : Value) (s : State) : exec (.or a b c) s = execBinary 13 (fun x y => x ||| y) a b c s := rfl

theorem exec_not (a b : Value) (s : State) :
    exec (.not a b) s = withDest 14 a s fun r => finish 3 none (s.writeReg r (s.resolve b ^^^ 0x7FFF)) := rfl

theorem exec_add_reg (r : RegNum) (b c : Value) (s : State) :
    exec (.add (.reg r) b c) s = finish 4 none (s.writeReg r (aluAdd (s.resolve b) (s.resolve c))) := rfl

/-- A literal destination of `add` is the address of a store (role A, R81). -/
theorem exec_add_lit (n : Val) (b c : Value) (s : State) :
    exec (.add (.lit n) b c) s = finish 4 none (s.writeMem n (aluAdd (s.resolve b) (s.resolve c))) := rfl

theorem exists_wroteReg_add (s : State) (r : RegNum) (b c : Value) :
    ∃ t, exec (.add (.reg r) b c) s = .next t ∧
      WroteReg s t r (((s.resolve b).toNat + (s.resolve c).toNat) % 32768) 4 :=
  toNat_aluAdd _ _ ▸ exists_wroteReg_of_exec (exec_add_reg r b c s)

theorem exists_wroteReg_not (s : State) (r : RegNum) (b : Value) :
    ∃ t, exec (.not (.reg r) b) s = .next t ∧ WroteReg s t r (32767 - (s.resolve b).toNat) 3 :=
  toNat_xor_ones _ ▸ exists_wroteReg_of_exec (exec_not (.reg r) b s)

/-! ### The statements for each instruction -/

/-- Settles O22: two values are equal exactly when their numbers are. -/
theorem eqComparesValues : Obligations.EqComparesValues := by
  refine ⟨fun s r b c => ?register, fun s n b c => ?literal, fun _ _ _ => rfl⟩
  case register =>
    refine exists_wroteReg_of_execBinary (exec_eq (.reg r) b c s) ?_
    simp only [toNat_truthVal_decide, BitVec.toNat_inj]
  case literal => exact exists_raisedDest_of_exec (exec_eq (.lit n) b c s)

/-- Settles O24: both forms of the destination take the same sum, one as a register write and one as a store. -/
theorem addWritesSum : Obligations.AddWritesSum :=
  ⟨exists_wroteReg_add, fun s n b c => toNat_aluAdd _ _ ▸ exists_wroteMem_of_exec (exec_add_lit n b c s),
    fun _ _ _ => rfl⟩

/-- Settles O25, by the destination check: a register is written with the reduced product, a literal faults. -/
theorem multWritesProduct : Obligations.MultWritesProduct :=
  ⟨fun s r b c => exists_wroteReg_of_execBinary (exec_mult (.reg r) b c s) (toNat_aluMult _ _),
    fun s n b c => exists_raisedDest_of_exec (exec_mult (.lit n) b c s), fun _ _ _ => rfl⟩

/-- Settles O27, by the destination check: a register is written with the bits of both, a literal faults. -/
theorem andWritesBits : Obligations.AndWritesBits :=
  ⟨fun s r b c => exists_wroteReg_of_execBinary (exec_and (.reg r) b c s) (BitVec.toNat_and _ _),
    fun s n b c => exists_raisedDest_of_exec (exec_and (.lit n) b c s), fun _ _ _ => rfl⟩

/-- Settles O28, by the destination check: a register is written with the bits of either, a literal faults. -/
theorem orWritesBits : Obligations.OrWritesBits :=
  ⟨fun s r b c => exists_wroteReg_of_execBinary (exec_or (.reg r) b c s) (BitVec.toNat_or _ _),
    fun s n b c => exists_raisedDest_of_exec (exec_or (.lit n) b c s), fun _ _ _ => rfl⟩

/-- Settles O29: the write is stated with the difference, which is the exclusive or. -/
theorem notComplementsBits : Obligations.NotComplementsBits := by
  refine ⟨fun s r b => ?register, fun s n b => ?literal, fun _ _ => rfl⟩
  case register =>
    obtain ⟨t, hexec, hwrote⟩ := exists_wroteReg_not s r b
    have hxor : (s.resolve b).toNat ^^^ 0x7FFF = 32767 - (s.resolve b).toNat :=
      (BitVec.toNat_xor _ _).symm.trans (toNat_xor_ones _)
    exact ⟨t, hexec, hxor ▸ hwrote, hwrote.value⟩
  case literal => exact exists_raisedDest_of_exec (exec_not (.lit n) b s)

/-! ### The idioms of R53 -/

/-- Settles O47: 32767 is −1 modulo 32768, and the complement plus 1 is 32768 minus the value. -/
theorem idiomsSubtractAndNegate : Obligations.IdiomsSubtractAndNegate := by
  refine ⟨fun s r => ?subtract, fun s r => ?negate⟩
  case subtract =>
    obtain ⟨t, hexec, hwrote⟩ := exists_wroteReg_add s r (.reg r) (.lit 32767)
    have hmax : (32767 : Val).toNat = 32767 := rfl
    refine ⟨t, hexec, ?_⟩
    rw [hwrote.value, State.resolve_reg, State.resolve_lit, hmax, Nat.add_sub_assoc (by decide)]
  case negate =>
    obtain ⟨t, hnot, hcompl⟩ := exists_wroteReg_not s r (.reg r)
    obtain ⟨u, hadd, hsum⟩ := exists_wroteReg_add t r (.reg r) (.lit 1)
    have hone : (1 : Val).toNat = 1 := rfl
    have hlt := (s.readReg r).isLt
    refine ⟨t, u, hnot, hadd, ?_⟩
    rw [hsum.value, State.resolve_reg, State.resolve_lit, hcompl.value, State.resolve_reg, hone]
    omega

/-! ### A store is seen by the next fetch -/

/-- A data address lies inside memory, so the fetch there reads a word, the content of that cell first (R33, R58). -/
theorem State.head?_fetch_of_pc_eq {s : State} {a : Val} (h : s.pc = a.toWord) : s.fetch.head? = some (s.readMem a) := by
  have hpc : s.pc.toNat = a.toNat := by rw [h, Val.toNat_toWord]
  rw [State.head?_fetch, wordAtPc, hpc, if_pos (show a.toNat < memWords from a.isLt), State.readMem]

/-- The word that an instruction stores is the first one fetched, where the core goes on at that address (R39). -/
theorem head?_fetch_of_stored {s t : State} {a v : Val} {n : Nat} (h : finish n none (s.writeMem a v) = .next t)
    (hpc : t.pc = a.toWord) : t.fetch.head? = some v.toWord := by
  obtain rfl := finish_eq_next.mp h
  rw [State.head?_fetch_of_pc_eq hpc, State.readMem_route, State.readMem_writeMem, if_pos rfl]

/-- Settles O45: both instructions end in a store to the address that `pc` then holds. -/
theorem nextFetchSeesStore : Obligations.NextFetchSeesStore := by
  refine ⟨fun s t a b hexec hpc => ?wmem, fun s t n b c hexec hpc => ?add⟩
  case wmem =>
    rw [exec_wmem] at hexec
    exact head?_fetch_of_stored hexec hpc
  case add =>
    rw [exec_add_lit] at hexec
    exact ⟨_, head?_fetch_of_stored hexec hpc, by rw [Val.toNat_toWord, toNat_aluAdd]⟩

end Sys2Proof.Machine

namespace Sys2Proof.Machine

/-! ## The two ports: `out` emits a byte, `in` takes one -/

/-- Settles O37: of the endings of an instruction, one emits and is `out`'s, one takes and is `in`'s, and the others keep
both streams. -/
theorem portsMoveOneByteInOrder : Obligations.PortsMoveOneByteInOrder := by
  intro i s t h
  have hend := exec_ending i s
  rw [h] at hend
  cases hend
  case emitted a hi => exact ⟨.inr ⟨a, _, hi, BitVec.toNat_setWidth 8 _, rfl⟩, .inl rfl⟩
  case took r b rest hi hinput =>
    refine ⟨.inl rfl, .inr ⟨r, b, hi, hinput, ?_⟩⟩
    rw [State.readReg_route, State.readReg_writeReg_self, BitVec.toNat_setWidth_of_le (by decide)]
  all_goals exact ⟨.inl rfl, .inl rfl⟩

/-- `out` has no destination check: its operand is a value (R90). -/
theorem exec_out (a : Value) (s : State) :
    exec (.out a) s = finish 2 none (s.emit ((s.resolve a).setWidth 8)) := rfl

/-- Settles O30: every form of the operand ends in the emission of the resolved value's low byte, which changes
the output alone; the router then moves `pc`. -/
theorem outEmitsLowByte : Obligations.OutEmitsLowByte := by
  refine ⟨fun s a => ?_, fun _ => rfl⟩
  exact ⟨_, (s.resolve a).setWidth 8, exec_out a s, BitVec.toNat_setWidth 8 _, rfl, fun _ => rfl, fun _ => rfl, rfl, rfl, rfl,
    rfl, rfl⟩

end Sys2Proof.Machine

namespace Sys2Proof.Machine

/-! ## A stopped core stays stopped -/

/-- No host action changes the status of a stopped core: its step changes nothing (R56), and the host's own actions never
write the status (R99). -/
theorem hostAct_status_of_not_running {s : State} (h : s.status ≠ .running) (action : HostAction) :
    (hostAct s action).status = s.status := by
  cases action with
  | step => simp only [hostAct, step_of_not_running h]
  | writeReg index v =>
    simp only [hostAct]
    cases hwrite : hostWriteReg index v s with
    | ok t =>
      obtain ⟨-, -, rfl⟩ := hostWriteReg_eq_ok hwrite
      exact s.writeReg_status _ _
    | error _ => rfl
  | deliver _ => rfl
  | takeOutput => rfl

/-- The status of a stopped core outlasts every list of host actions, each of which finds the core still stopped. -/
theorem foldl_hostAct_status_of_not_running {s : State} (h : s.status ≠ .running) (actions : List HostAction) :
    (List.foldl hostAct s actions).status = s.status := by
  induction actions generalizing s with
  | nil => rfl
  | cons action actions ih =>
    have hact : (hostAct s action).status = s.status := hostAct_status_of_not_running h action
    exact (ih (hact ▸ h)).trans hact

/-- Settles O44: a stopped core's step is the identity, and no single host action, so no list of them, changes its
status. -/
theorem stoppedCoreStaysStopped : Obligations.StoppedCoreStaysStopped :=
  ⟨fun _ => step_of_not_running, fun actions _ h => foldl_hostAct_status_of_not_running h actions⟩

end Sys2Proof.Machine

namespace Sys2Proof.Machine

/-! ## What the reset state holds -/

@[simp] theorem State.readReg_resetWith (cfg : Config) (r : RegNum) : (State.resetWith cfg).readReg r = 0 :=
  Vector.getElem_replicate r.isLt

/-- Reset lists no cell, and a cell that is not listed holds 0. -/
@[simp] theorem State.readMem_resetWith (cfg : Config) (a : Val) : (State.resetWith cfg).readMem a = 0 := rfl

/-- `State.reset` is the reset state with one particular configuration, so what holds of every `State.resetWith` holds
of it too. -/
theorem State.exists_eq_resetWith {s : State} (h : s = State.reset ∨ ∃ cfg, s = State.resetWith cfg) :
    ∃ cfg, s = State.resetWith cfg :=
  h.elim (fun hs => ⟨Config.unbounded, hs⟩) id

/-- Settles O48: whatever the configuration, the registers and the cells read 0, and the stack, `pc` and the status are
the fields that `State.resetWith` writes. -/
theorem resetIsAllZero : Obligations.ResetIsAllZero := by
  intro s hs
  obtain ⟨cfg, rfl⟩ := State.exists_eq_resetWith hs
  exact ⟨State.readReg_resetWith cfg, State.readMem_resetWith cfg, rfl, rfl, rfl⟩

end Sys2Proof.Machine

namespace Sys2Proof.Machine

/-! ## Designed halts and faults of an instruction, as next states -/

/-- An instruction that ends in a designed halt leaves what R94 says. -/
theorem exists_stopped_of_exec {i : Instr} {s : State} {reason : HaltReason} {n : Nat}
    (h : exec i s = stop reason n s) : ∃ t, exec i s = .next t ∧ Stopped s t reason n :=
  ⟨_, h, stopped_of_stop rfl⟩

/-- An instruction that ends in a fault leaves what R95 says. -/
theorem exists_raised_of_exec {i : Instr} {s : State} {kind : FaultKind} {word : Option Word} {detail : Detail}
    (h : exec i s = raise kind word detail s) : ∃ t, exec i s = .next t ∧ Raised s t kind word detail :=
  ⟨_, h, raised_of_raise rfl⟩

/-- A literal D operand faults before anything else is looked at (R49, R96). -/
theorem exec_of_literal_destOperand {i : Instr} {n : Val} (s : State) (h : i.destOperand = some (.lit n)) :
    exec i s = raise .destNotRegister (some i.code) (.operandWord n.toWord) s := by
  cases i
  case halt | push | jmp | jt | jf | add | wmem | call | ret | out | noop => cases h
  all_goals cases h; rfl

/-- A literal D operand faults with its operand word and changes nothing but the status (R49, R95). -/
theorem exists_raisedDest_of_destOperand {i : Instr} {n : Val} (s : State) (h : i.destOperand = some (.lit n)) :
    ∃ t, exec i s = .next t ∧ RaisedDest s t i.code n :=
  exists_raised_of_exec (exec_of_literal_destOperand s h)

theorem exec_halt (s : State) : exec .halt s = stop .haltInstr 1 s := rfl

/-- Settles O10: `halt` is the designed halt itself. -/
theorem haltStops : Obligations.HaltStops :=
  ⟨fun s => exists_stopped_of_exec (exec_halt s), rfl⟩

/-! ## The stack: `push`, `call`, `ret` and `pop` -/

theorem stackFull_eq_false_iff {s : State} : s.stackFull = false ↔ s.config.stackCapacity ≠ some s.stack.length := by
  rw [← Bool.not_eq_true, stackFull_iff]

/-- A number up to 32767 is kept by the 15 bits of a value (R15, R24). -/
theorem toNat_ofNat_of_le {n : Nat} (h : n ≤ 32767) : (BitVec.ofNat 15 n).toNat = n := by
  rw [BitVec.toNat_ofNat, Nat.mod_eq_of_lt (Nat.lt_succ_of_le h)]

section
variable {s : State}

theorem exec_push_of_room (a : Value) (h : s.config.stackCapacity ≠ some s.stack.length) :
    exec (.push a) s = finish 2 none { s with stack := s.resolve a :: s.stack } := by
  simp only [exec, execPush, stackFull_eq_false_iff.mpr h, State.push, Bool.false_eq_true, if_false]

theorem exec_push_of_full (a : Value) (h : s.config.stackCapacity = some s.stack.length) :
    exec (.push a) s = raise .stackOverflow (some 2) (.depth s.stack.length) s :=
  if_pos (stackFull_iff.mpr h)

theorem exec_call_of_room (a : Value) (hpc : s.pc.toNat + 2 ≤ 32767)
    (h : s.config.stackCapacity ≠ some s.stack.length) :
    exec (.call a) s =
      finish 2 (some (s.resolve a)) { s with stack := BitVec.ofNat 15 (s.pc.toNat + 2) :: s.stack } := by
  simp only [exec, execCall, stackFull_eq_false_iff.mpr h, State.push, Nat.not_lt_of_le hpc,
    Bool.false_eq_true, if_false]

/-- The address check of `call` comes before the capacity check (R96). -/
theorem exec_call_of_bounds (a : Value) (hpc : s.pc.toNat + 2 > 32767) :
    exec (.call a) s = raise .addressBounds (some 17) (.address (s.pc.toNat + 2)) s :=
  if_pos hpc

theorem exec_call_of_full (a : Value) (hpc : s.pc.toNat + 2 ≤ 32767)
    (h : s.config.stackCapacity = some s.stack.length) :
    exec (.call a) s = raise .stackOverflow (some 17) (.depth s.stack.length) s :=
  (if_neg (Nat.not_lt_of_le hpc)).trans (if_pos (stackFull_iff.mpr h))

theorem exec_ret_of_cons {v : Val} {rest : List Val} (h : s.stack = v :: rest) :
    exec .ret s = finish 1 (some v) { s with stack := rest } := by
  simp only [exec, execRet, h]

theorem exec_ret_of_nil (h : s.stack = []) : exec .ret s = stop .retEmpty 1 s := by
  simp only [exec, execRet, h]

theorem exec_pop_of_cons (r : RegNum) {v : Val} {rest : List Val} (h : s.stack = v :: rest) :
    exec (.pop (.reg r)) s = finish 2 none (({ s with stack := rest } : State).writeReg r v) := by
  simp only [exec, execPop, withDest, h]

theorem exec_pop_of_nil (r : RegNum) (h : s.stack = []) : exec (.pop (.reg r)) s = stop .popEmpty 2 s := by
  simp only [exec, execPop, withDest, h]

end

/-- Settles O14: the address check, then the capacity check, and else the return address goes on top. -/
theorem callPushesReturnAddress : Obligations.CallPushesReturnAddress := by
  refine ⟨fun s a hpc hroom => ?room, fun s a hpc => ?bounds, fun s a hpc hfull => ?full, fun _ => rfl⟩
  case room =>
    obtain ⟨t, hexec, hmoved⟩ := exists_movedTo_of_exec (exec_call_of_room a hpc hroom)
    exact ⟨t, _, hexec, toNat_ofNat_of_le hpc, hmoved⟩
  case bounds => exact exists_raised_of_exec (exec_call_of_bounds a hpc)
  case full => exact exists_raised_of_exec (exec_call_of_full a hpc hfull)

/-- Settles O15, by whether the stack is empty. -/
theorem retPopsPc : Obligations.RetPopsPc :=
  ⟨fun _ _ _ hs => exists_movedTo_of_exec (exec_ret_of_cons hs),
    fun _ hs => exists_stopped_of_exec (exec_ret_of_nil hs), rfl⟩

/-- Settles O20, by the capacity check. -/
theorem pushPutsOnTop : Obligations.PushPutsOnTop :=
  ⟨fun _ a hroom => exists_movedTo_of_exec (exec_push_of_room a hroom),
    fun _ a hfull => exists_raised_of_exec (exec_push_of_full a hfull), fun _ => rfl⟩

/-- Settles O21: the destination check, and then whether the stack is empty. -/
theorem popTakesTop : Obligations.PopTakesTop := by
  refine ⟨fun s r v rest hs => ?top, fun s r hs => ?empty, fun s _ => ?literal, fun _ => rfl⟩
  case top =>
    exact ⟨_, exec_pop_of_cons r hs, State.readReg_writeReg_self _ r v, fun q hq => State.readReg_writeReg_ne _ r q v hq,
      fun _ => rfl, rfl, rfl, rfl, rfl, rfl, rfl⟩
  case empty => exact exists_stopped_of_exec (exec_pop_of_nil r hs)
  case literal => exact exists_raisedDest_of_destOperand s rfl

/-- Settles O35: of the endings of an instruction, two put a value on top and two take the top, and the others keep the
stack. -/
theorem stackChangesOnlyAtTop : Obligations.StackChangesOnlyAtTop := by
  intro i s t h
  have hend := exec_ending i s
  rw [h] at hend
  cases hend
  case pushed a hi _ => exact .inr (.inl ⟨a, hi, rfl⟩)
  case called a hi hpc _ => exact .inr (.inr (.inl ⟨a, _, hi, toNat_ofNat_of_le hpc, rfl⟩))
  case popped r v rest hi hs => exact .inr (.inr (.inr (.inl ⟨r, v, hi, hs, State.readReg_writeReg_self _ r v⟩)))
  case returned v rest hi hs => exact .inr (.inr (.inr (.inr ⟨v, hi, hs, rfl⟩)))
  all_goals exact .inl rfl

/-! ### Call and return, push and pop -/

theorem StreamsKept.trans {s t u : State} (h : StreamsKept s t) (h' : StreamsKept t u) : StreamsKept s u := by
  obtain ⟨hin, hout, hconfig⟩ := h
  obtain ⟨hin', hout', hconfig'⟩ := h'
  exact ⟨hin'.trans hin, hout'.trans hout, hconfig'.trans hconfig⟩

/-- Of two moves in a row, the second says where the stack and `pc` are. -/
theorem MovedTo.trans {s t u : State} {stack stack' : List Val} {pc pc' : Word} (h : MovedTo s t stack pc)
    (h' : MovedTo t u stack' pc') : MovedTo s u stack' pc' where
  stack := h'.stack
  pc := h'.pc
  regs q := (h'.regs q).trans (h.regs q)
  mem a := (h'.mem a).trans (h.mem a)
  status := h'.status.trans h.status
  streams := h.streams.trans h'.streams

/-- The return address, taken off the stack, is the address behind the `call` (R70, R71). -/
theorem toWord_returnAddress {p : Word} {v : Val} (h : v.toNat = p.toNat + 2) : v.toWord = p + 2 := by
  have hlt := v.isLt
  apply BitVec.eq_of_toNat_eq
  rw [Val.toNat_toWord, BitVec.toNat_add, h]
  change _ = (p.toNat + 2) % 65536
  omega

/-- Settles O46: `ret` and `pop` take the value that `call` and `push` put on top, and the frames compose. -/
theorem stackRoundTrips : Obligations.StackRoundTrips := by
  refine ⟨fun s a hpc hroom => ?call, fun s a r hroom => ?push⟩
  case call =>
    obtain ⟨t, v, hcall, hv, hpushed⟩ := callPushesReturnAddress.1 s a hpc hroom
    obtain ⟨u, hret, hpopped⟩ := retPopsPc.1 t v s.stack hpushed.stack
    exact ⟨t, u, hcall, hret, toWord_returnAddress hv ▸ hpushed.trans hpopped⟩
  case push =>
    obtain ⟨t, hpush, hpushed⟩ := pushPutsOnTop.1 s a hroom
    obtain ⟨u, hpop, hval, hothers, hmem, hstack, hpc, hstatus, hstreams⟩ := popTakesTop.1 t r _ _ hpushed.stack
    refine ⟨t, u, hpush, hpop, ?_⟩
    exact {
      value := congrArg BitVec.toNat hval
      others := fun q hq => (hothers q hq).trans (hpushed.regs q)
      mem := fun b => (hmem b).trans (hpushed.mem b)
      stack := hstack
      pc := by rw [hpc, hpushed.pc, BitVec.add_assoc]; rfl
      status := hstatus.trans hpushed.status
      streams := hpushed.streams.trans hstreams }

end Sys2Proof.Machine

namespace Sys2Proof.Machine

/-! ## `gt`, `mod`, `rmem` and `in` -/

theorem exec_gt (a b c : Value) (s : State) :
    exec (.gt a b c) s = execBinary 5 (fun x y => truthVal (decide (x.toNat > y.toNat))) a b c s := rfl

/-- Settles O23: the value written is the truth of the comparison of the two numbers. -/
theorem gtComparesUnsigned : Obligations.GtComparesUnsigned :=
  ⟨fun s r b c => exists_wroteReg_of_execBinary (exec_gt (.reg r) b c s) (toNat_truthVal_decide _),
    fun s _ _ _ => exists_raisedDest_of_destOperand s rfl, fun _ _ _ => rfl⟩

/-- A remainder of 15-bit numbers has 15 bits (R83). -/
theorem toNat_aluMod (b c : Val) : (aluMod b c).toNat = b.toNat % c.toNat := by
  have hle := Nat.mod_le b.toNat c.toNat
  have hlt := b.isLt
  rw [aluMod, BitVec.toNat_ofNat, Nat.mod_eq_of_lt (by omega)]

theorem exec_mod_of_ne_zero {s : State} (r : RegNum) (b : Value) {c : Value} (h : (s.resolve c).toNat ≠ 0) :
    exec (.mod (.reg r) b c) s = finish 4 none (s.writeReg r (aluMod (s.resolve b) (s.resolve c))) :=
  if_neg (mt Val.eq_zero_iff.mp h)

theorem exec_mod_of_eq_zero {s : State} (r : RegNum) (b : Value) {c : Value} (h : (s.resolve c).toNat = 0) :
    exec (.mod (.reg r) b c) s = raise .divideByZero (some 11) .none s :=
  if_pos (Val.eq_zero_iff.mpr h)

/-- Settles O26: the destination check, and then whether the divisor is 0. -/
theorem modWritesRemainder : Obligations.ModWritesRemainder := by
  refine ⟨fun s r b c hc => ?nonzero, fun s r b c hc => ?zero, fun s _ _ _ => ?literal, fun _ _ _ => rfl⟩
  case nonzero => exact toNat_aluMod _ _ ▸ exists_wroteReg_of_exec (exec_mod_of_ne_zero r b hc)
  case zero => exact exists_raised_of_exec (exec_mod_of_eq_zero r b hc)
  case literal => exact exists_raisedDest_of_destOperand s rfl

section
variable {s : State} (r : RegNum) {b : Value}

theorem exec_rmem_of_le (h : (s.readMem (s.resolve b)).toNat ≤ 32767) :
    exec (.rmem (.reg r) b) s = finish 3 none (s.writeReg r ((s.readMem (s.resolve b)).setWidth 15)) :=
  if_neg (Nat.not_lt_of_le h)

theorem exec_rmem_of_gt (h : (s.readMem (s.resolve b)).toNat > 32767) :
    exec (.rmem (.reg r) b) s =
      raise .regrefAsData (some 15) (.cell (s.resolve b) (s.readMem (s.resolve b))) s :=
  if_pos h

end

/-- A word that is data keeps its number as a value (R8, R42). -/
theorem toNat_setWidth_of_data {w : Word} (h : w.toNat ≤ 32767) : (w.setWidth 15).toNat = w.toNat := by
  rw [BitVec.toNat_setWidth, Nat.mod_eq_of_lt (by omega)]

/-- Settles O18: the destination check, and then whether the word in the cell is data. -/
theorem rmemReadsCell : Obligations.RmemReadsCell := by
  refine ⟨fun s r b hdata => ?data, fun s r b hregref => ?regref, fun s _ _ => ?literal, fun _ _ => rfl⟩
  case data => exact toNat_setWidth_of_data hdata ▸ exists_wroteReg_of_exec (exec_rmem_of_le r hdata)
  case regref => exact exists_raised_of_exec (exec_rmem_of_gt r hregref)
  case literal => exact exists_raisedDest_of_destOperand s rfl

/-- Settles O31: the destination check, and then whether a byte was delivered. -/
theorem inTakesNextByte : Obligations.InTakesNextByte := by
  refine ⟨fun s r b rest hinput => ?byte, fun s r => exec_in_eq_fault r, fun s _ => ?literal, fun _ => rfl⟩
  case byte =>
    refine ⟨_, exec_in_eq_finish r hinput, ?_, fun q hq => State.readReg_writeReg_ne _ r q _ hq, fun _ => rfl, rfl, rfl,
      rfl, rfl, rfl, rfl⟩
    rw [State.readReg_route, State.readReg_writeReg_self, BitVec.toNat_setWidth_of_le (by decide)]
  case literal => exact exists_raisedDest_of_destOperand s rfl

/-- Bytes delivered later are unseen (R88). -/
theorem unseen_later_input (ops : List Value) (later : List Byte) : Unseen ops id (· ++ later) id where
  resolve s x _ := by cases x <;> rfl
  set _ _ _ _ := rfl
  input _ _ := rfl
  output _ _ := rfl

/-- Settles O39: a delivery is a change that no instruction sees and the fetch does not read. -/
theorem laterInputIsNotSeen : Obligations.LaterInputIsNotSeen :=
  fun s t later h => carries_step (fun ops => unseen_later_input ops later) s t h

end Sys2Proof.Machine

namespace Sys2Proof.Machine

/-! ## Faults and designed halts have their causes -/

/-- Which instruction raises a fault of this kind with this detail, and in which state (R93, the column "raised by"). -/
inductive RaisedBy (i : Instr) (s : State) : FaultKind → Detail → Prop where
  | badDest (n : Val) (h : i.destOperand = some (.lit n)) : RaisedBy i s .destNotRegister (.operandWord n.toWord)
  | regref (r : RegNum) (b : Value) (hi : i = .rmem (.reg r) b) (h : 32767 < (s.readMem (s.resolve b)).toNat) :
      RaisedBy i s .regrefAsData (.cell (s.resolve b) (s.readMem (s.resolve b)))
  | divZero (r : RegNum) (b c : Value) (hi : i = .mod (.reg r) b c) (h : s.resolve c = 0) :
      RaisedBy i s .divideByZero .none
  | bounds (a : Value) (hi : i = .call a) (h : 32767 < s.pc.toNat + 2) :
      RaisedBy i s .addressBounds (.address (s.pc.toNat + 2))
  | overflow (a : Value) (hi : i = .push a ∨ i = .call a) (h : s.config.stackCapacity = some s.stack.length) :
      RaisedBy i s .stackOverflow (.depth s.stack.length)

/-- An instruction run by a running core stops it by a fault only for one of the causes of R93. -/
theorem raisedBy_of_exec {i : Instr} {s t : State} {f : FaultRecord} (hrun : s.status = .running)
    (h : exec i s = .next t) (hf : t.status = .error f) : RaisedBy i s f.kind f.detail := by
  have hend := exec_ending i s
  rw [h] at hend
  cases hend
  case badDest n hn => cases hf; exact .badDest n hn
  case regref r b hi hcell => cases hf; exact .regref r b hi hcell
  case divZero r b c hi hc => cases hf; exact .divZero r b c hi hc
  case bounds a hi hpc => cases hf; exact .bounds a hi hpc
  case overflow a hi hfull => cases hf; exact .overflow a (hi.imp_right And.left) (stackFull_iff.mp hfull)
  case halted | popEmpty | retEmpty => cases hf
  all_goals exact nomatch hrun.symm.trans hf

/-- An instruction is ill-formed exactly when its D operand is a literal (R49). -/
theorem wellFormed_eq_false_iff {i : Instr} : i.wellFormed = false ↔ ∃ n, i.destOperand = some (.lit n) := by
  unfold Instr.wellFormed
  rcases i.destOperand with _ | (n | r)
  · simp
  · simp [Value.isReg]
  · simp [Value.isReg]

/-- A D operand is the first operand, and so the first word after the opcode word (R43, R47). -/
theorem encode_getElem?_one_of_destOperand {i : Instr} {a : Value} (h : i.destOperand = some a) :
    (encode i)[1]? = some (encodeValue a) := by
  cases i
  case halt | push | jmp | jt | jf | add | wmem | call | ret | out | noop => cases h
  all_goals cases h; rfl

/-- Settles O9: a literal D operand faults at once, and of the causes of R93 only that one has the kind
DEST_NOT_REGISTER. -/
theorem literalDestinationsFault : Obligations.LiteralDestinationsFault := by
  refine ⟨fun i s hill => ?ill, fun i s t f hwell hrun hexec hf hkind => ?well⟩
  case ill =>
    obtain ⟨n, hn⟩ := wellFormed_eq_false_iff.mp hill
    obtain ⟨t, hexec, hraised⟩ := exists_raisedDest_of_destOperand s hn
    exact ⟨t, _, hexec, encode_getElem?_one_of_destOperand hn, hraised⟩
  case well =>
    have hcause := raisedBy_of_exec hrun hexec hf
    rw [hkind] at hcause
    generalize f.detail = detail at hcause
    cases hcause with
    | badDest n hn => exact Bool.false_ne_true ((wellFormed_eq_false_iff.mpr ⟨n, hn⟩).symm.trans hwell)

/-- What decodes was fetched from inside memory (R50). -/
theorem pc_lt_of_decode {s : State} {i : Instr} {rest : List Word} (h : decode s.fetch = .ok (i, rest)) :
    s.pc.toNat < memWords := by
  by_contra hpc
  rw [State.fetch_of_le (Nat.not_lt.mp hpc)] at h
  cases h

/-- Settles O42, cause by cause; a `call` that was fetched from inside memory and has its return address outside stands
at 32766. -/
theorem faultsHaveTheirCauses : Obligations.FaultsHaveTheirCauses := by
  refine ⟨fun s t i rest f hrun hd hstep hf => ?_, rfl⟩
  have hcause := raisedBy_of_exec hrun (step_of_decode hrun hd ▸ hstep) hf
  generalize f.kind = kind, f.detail = detail at hcause
  cases hcause with
  | badDest n hn => exact .inl ⟨rfl, n, hn, rfl⟩
  | regref r b hi hcell => exact .inr (.inl ⟨rfl, r, b, hi, hcell, rfl⟩)
  | divZero r b c hi hc => exact .inr (.inr (.inl ⟨rfl, ⟨r, b, c, hi, hc⟩, rfl⟩))
  | bounds a hi hpc =>
    have hend := pc_add_length_le_of_decode (pc_lt_of_decode hd).le hd
    rw [hi] at hend
    have hpc : s.pc.toNat = 32766 := by
      change s.pc.toNat + 2 ≤ 32768 at hend
      omega
    exact .inr (.inr (.inr (.inl ⟨rfl, ⟨a, hi⟩, hpc, by rw [hpc]⟩)))
  | overflow a hi hfull => exact .inr (.inr (.inr (.inr ⟨rfl, ⟨a, hi⟩, hfull, rfl⟩)))

/-- Settles O43: a fault of the fetch is no halt, and of the endings of an instruction three are halts. -/
theorem haltsHaveTheirCauses : Obligations.HaltsHaveTheirCauses := by
  refine ⟨fun s t reason hrun hstep hhalt => ?_, rfl⟩
  rcases running_step_cases hrun with ⟨i, rest, hd, he⟩ | ⟨e, hd, he⟩
  · refine ⟨i, rest, hd, ?_⟩
    have hend := exec_ending i s
    rw [← he, hstep] at hend
    cases hend
    case halted hi => cases hhalt; exact .inl ⟨rfl, hi⟩
    case popEmpty r hi hs => cases hhalt; exact .inr (.inl ⟨rfl, hs, r, hi⟩)
    case retEmpty hi hs => cases hhalt; exact .inr (.inr ⟨rfl, hs, hi⟩)
    case badDest | regref | divZero | bounds | overflow => cases hhalt
    all_goals exact nomatch hrun.symm.trans hhalt
  · obtain ⟨f, rfl, -, -⟩ := raiseDecode_precise hd (he ▸ hstep)
    cases hhalt

end Sys2Proof.Machine

namespace Sys2Proof.Machine

/-! ## The load's checks in order -/

/-- The first word above 32775 is reported with the byte offset of its low byte (R112). -/
theorem firstInvalid_eq_some {ws : List Word} {i : Nat} (offset : Nat)
    (hgood : ∀ j, j < i → (ws.getD j 0).toNat ≤ maxValidWord) (hbad : maxValidWord < (ws.getD i 0).toNat) :
    firstInvalid offset ws = some (offset + 2 * i, ws.getD i 0) := by
  induction ws generalizing i offset with
  | nil => exact absurd hbad (Nat.not_lt_zero _)
  | cons w ws ih =>
    unfold firstInvalid
    cases i with
    | zero => exact if_pos hbad
    | succ i =>
      have hw : ¬ w.toNat > maxValidWord := Nat.not_lt.mpr (hgood 0 i.succ_pos)
      have htail := ih (offset + 2) (fun j hj => hgood (j + 1) (Nat.succ_lt_succ hj)) hbad
      rw [if_neg hw, htail, Nat.mul_succ, Nat.add_right_comm, Nat.add_assoc, List.getD_cons_succ]

theorem firstInvalid_eq_none {ws : List Word} (offset : Nat) (h : ∀ w ∈ ws, w.toNat ≤ maxValidWord) :
    firstInvalid offset ws = none := by
  induction ws generalizing offset with
  | nil => rfl
  | cons w ws ih =>
    obtain ⟨hw, hws⟩ := List.forall_mem_cons.mp h
    unfold firstInvalid
    rw [if_neg (Nat.not_lt.mpr hw), ih _ hws]

section
variable {bytes : List Byte} (cfg : Config)

theorem load_of_odd (h : bytes.length % 2 = 1) : load cfg bytes = .error (.oddLength bytes.length) :=
  if_pos h

theorem load_of_even (h : bytes.length % 2 = 0) : load cfg bytes = loadWords cfg (wordsOfBytes bytes) :=
  if_neg (by omega)

end

section
variable {ws : List Word} (cfg : Config)

theorem loadWords_of_tooMany (h : memWords < ws.length) : loadWords cfg ws = .error (.tooManyWords ws.length) :=
  if_pos h

theorem loadWords_of_invalid {offset : Nat} {w : Word} (hlen : ws.length ≤ memWords)
    (h : firstInvalid 0 ws = some (offset, w)) : loadWords cfg ws = .error (.invalidWord offset w) := by
  rw [loadWords, if_neg (Nat.not_lt.mpr hlen), h]

theorem loadWords_of_valid (hlen : ws.length ≤ memWords) (h : firstInvalid 0 ws = none) :
    loadWords cfg ws = .ok { State.resetWith cfg with mem := Memory.writeWords [] 0 ws } := by
  rw [loadWords, if_neg (Nat.not_lt.mpr hlen), h]

end

/-- A file whose byte pairs are all at most 32775 has only legal words (R28, R112). -/
theorem wordsOfBytes_le {bytes : List Byte}
    (h : ∀ j, 2 * j < bytes.length →
      (bytes.getD (2 * j) 0).toNat + 256 * (bytes.getD (2 * j + 1) 0).toNat ≤ maxValidWord) :
    ∀ w ∈ wordsOfBytes bytes, w.toNat ≤ maxValidWord := by
  intro w hw
  obtain ⟨j, hj, rfl⟩ := List.getElem_of_mem hw
  have hlen := length_wordsOfBytes bytes
  rw [← List.getD_eq_getElem _ 0 hj, toNat_getD_wordsOfBytes (by omega)]
  exact h j (by omega)

/-- Settles O50, check by check; word i is read off the bytes 2i and 2i + 1. -/
theorem loadChecksInOrder : Obligations.LoadChecksInOrder := by
  intro cfg bytes
  have hlen := length_wordsOfBytes bytes
  refine ⟨load_of_odd cfg, fun heven hlong => ?long,
    fun heven hshort => ⟨fun i hi hgood hbad => ?invalid, fun hgood => ?valid⟩⟩
  case long =>
    have hmany : memWords < (wordsOfBytes bytes).length := by unfold memWords; omega
    rw [load_of_even cfg heven, loadWords_of_tooMany cfg hmany, hlen]
  case invalid =>
    have hfit : (wordsOfBytes bytes).length ≤ memWords := by unfold memWords; omega
    have hword : ∀ j, j ≤ i → ((wordsOfBytes bytes).getD j 0).toNat =
        (bytes.getD (2 * j) 0).toNat + 256 * (bytes.getD (2 * j + 1) 0).toNat :=
      fun j hj => toNat_getD_wordsOfBytes (by omega)
    have hfirst := firstInvalid_eq_some (ws := wordsOfBytes bytes) (i := i) 0
      (fun j hj => hword j hj.le ▸ hgood j hj) (hword i le_rfl ▸ hbad)
    rw [Nat.zero_add] at hfirst
    exact ⟨_, (load_of_even cfg heven).trans (loadWords_of_invalid cfg hfit hfirst), hword i le_rfl⟩
  case valid =>
    have hfit : (wordsOfBytes bytes).length ≤ memWords := by unfold memWords; omega
    have hnone := firstInvalid_eq_none 0 (wordsOfBytes_le hgood)
    exact ⟨_, (load_of_even cfg heven).trans (loadWords_of_valid cfg hfit hnone)⟩

end Sys2Proof.Machine

namespace Sys2Proof.Machine

/-! ## What the host does: the register write, the run, and any action -/

/-- Past no words, the router leaves `pc` where it is. -/
theorem State.route_zero (s : State) : s.route 0 none = s := by
  have hpc : s.pc + BitVec.ofNat 16 0 = s.pc := BitVec.add_zero s.pc
  rw [State.route, nextPc_none, hpc]

theorem hostWriteReg_of_le (s : State) (r : RegNum) {v : Nat} (hv : v ≤ 32767) :
    hostWriteReg r.val v s = .ok (s.writeReg r (BitVec.ofNat 15 v)) := by
  have hr : ¬ r.val > 7 := by omega
  rw [hostWriteReg, if_neg hr, if_neg (Nat.not_lt.mpr hv), Fin.ofNat_val_eq_self]

/-- Settles O51, check by check; a write that is taken is a register write after which `pc` does not move. -/
theorem hostRegisterWriteIsChecked : Obligations.HostRegisterWriteIsChecked := by
  refine ⟨fun s r v hv => ⟨_, hostWriteReg_of_le s r hv, ?_⟩, fun s index v hindex => if_pos hindex,
    fun s index v hindex hv => (if_neg (Nat.not_lt.mpr hindex)).trans (if_pos hv)⟩
  have hwrote := s.wroteReg_route r (BitVec.ofNat 15 v) 0
  rwa [State.route_zero, toNat_ofNat_of_le hv] at hwrote

/-- Settles O58, by the four actions: a step, a register write, a delivery and a taking of output. -/
theorem hostActionKeepsInvariant : Obligations.HostActionKeepsInvariant :=
  fun _ action h => hostAct_keeps_inv h action

/-- What the end of a run of at most `k` steps from `s` says of the repeated step (R102, R104, R105). -/
def RunEnd.TrueOf (k : Nat) (s : State) : RunEnd → Prop
  | .ended t => t.report ≠ .continues ∧ ∃ j, j ≤ k ∧ core.run j s = .next t
  | .stoppedByHost t => s.status = .running → t.status = .running ∧ core.run k s = .next t
  | .holding t => step t = .fault .inputHold ∧ ∃ j, j < k ∧ core.run j s = .next t

/-- Of any machine: a run whose first step has a next state goes on from there. -/
theorem run_succ_of_step {M : Host.Core} {s t : M.State} (h : M.step s = .next t) (k : Nat) :
    M.run (k + 1) s = M.run k t := by
  simp only [Host.Core.run, h]

/-- What holds of a run from a running core holds of the run that starts a step earlier. -/
theorem RunEnd.TrueOf.of_step {k : Nat} {s t : State} {e : RunEnd} (h : step s = .next t) (hrun : t.status = .running)
    (he : e.TrueOf k t) : e.TrueOf (k + 1) s := by
  cases e with
  | ended u =>
    obtain ⟨hreport, j, hj, hjrun⟩ := he
    exact ⟨hreport, j + 1, Nat.succ_le_succ hj, (run_succ_of_step (M := core) h j).trans hjrun⟩
  | stoppedByHost u =>
    obtain ⟨hu, hkrun⟩ := he hrun
    exact fun _ => ⟨hu, (run_succ_of_step (M := core) h k).trans hkrun⟩
  | holding u =>
    obtain ⟨hhold, j, hj, hjrun⟩ := he
    exact ⟨hhold, j + 1, Nat.succ_lt_succ hj, (run_succ_of_step (M := core) h j).trans hjrun⟩

theorem runToCompletion_trueOf (k : Nat) (s : State) : (runToCompletion k s).TrueOf k s := by
  induction k generalizing s with
  | zero => exact fun hrun => ⟨hrun, rfl⟩
  | succ k ih =>
    unfold runToCompletion
    cases hstep : step s with
    | next t =>
      simp only
      split
      · rename_i hreport
        exact (ih t).of_step hstep ((reportFollowsStatus t).1.mp hreport)
      · rename_i hreport
        exact ⟨hreport, 1, Nat.le_add_left 1 k, run_succ_of_step (M := core) hstep 0⟩
    | fault f => cases f; exact ⟨hstep, 0, k.succ_pos, rfl⟩
    | refused m => exact absurd hstep (onlyInHolds.2.2 s m)

/-- Settles O53, by what each end of a run says, which is an induction on the number of steps. -/
theorem runRepeatsStep : Obligations.RunRepeatsStep := by
  intro k s t
  have htrue := runToCompletion_trueOf k s
  refine ⟨fun h => ?_, fun h => ?_, fun h => ?_⟩
  · rwa [h] at htrue
  · rwa [h] at htrue
  · rwa [h] at htrue

end Sys2Proof.Machine

namespace Sys2Proof.Machine

/-! ## The disassembly covers memory -/

theorem Memory.readWords_add {m : Memory} {a n : Nat} (h : a + n ≤ memWords) (k : Nat) :
    m.readWords a (n + k) = m.readWords a n ++ m.readWords (a + n) k := by
  have hn : min n (memWords - a) = n := by omega
  have hnk : min (n + k) (memWords - a) = n + min k (memWords - (a + n)) := by omega
  simp only [Memory.readWords_eq_map, hn, hnk, ← List.map_append, List.range'_append_1]

/-- Inside memory, what decodes at an address is encoded by the words there (R58). -/
theorem Memory.encode_eq_readWords {m : Memory} {a : Nat} {i : Instr} {rest : List Word} (ha : a < memWords)
    (hd : decode (m.fetchAt a) = .ok (i, rest)) : encode i = m.readWords a i.length := by
  have hfetch : m.fetchAt a = m.readWords a (arityOf (m.read a) + 1) := by
    rw [Memory.fetchAt, if_pos ha, Memory.readWords, if_pos ha]
  have hwords : m.readWords a (arityOf (m.read a) + 1) = encode i ++ rest := hfetch ▸ eq_encode_of_decode hd
  have hcode : m.read a = i.code := by
    rw [Memory.readWords, if_pos ha] at hwords
    exact (List.cons.inj hwords).1
  rw [hcode, Nat.add_comm, ← i.length_eq] at hwords
  have hlen := congrArg List.length hwords
  rw [List.length_append, Memory.length_readWords, ← Instr.length] at hlen
  obtain rfl : rest = [] := List.eq_nil_of_length_eq_zero (by omega)
  rw [hwords, List.append_nil]

/-- Inside memory the disassembly begins with a line whose words, one at least, are those at its address, and goes on
behind them (R109). -/
theorem Memory.disassemble_succ {m : Memory} {a : Nat} (ha : a < memWords) (fuel : Nat) :
    ∃ line : DisasmItem,
      m.disassemble (fuel + 1) a = (a, line) :: m.disassemble fuel (a + line.words.length) ∧
      line.words = m.readWords a line.words.length ∧ 0 < line.words.length := by
  rw [Memory.disassemble, if_pos ha]
  cases hd : decode (m.fetchAt a) with
  | ok p => exact ⟨.instr p.1, rfl, Memory.encode_eq_readWords ha hd, Nat.succ_pos _⟩
  | error e => exact ⟨.word (m.read a), rfl, by simp [DisasmItem.words, Memory.readWords, ha], Nat.one_pos⟩

theorem Memory.disassemble_of_le {m : Memory} {a : Nat} (ha : memWords ≤ a) (fuel : Nat) : m.disassemble fuel a = [] := by
  cases fuel with
  | zero => rfl
  | succ fuel => exact if_neg (Nat.not_lt.mpr ha)

/-- With a line left for every word, the lines from an address on are all of memory from there on. -/
theorem Memory.flatMap_words_disassemble (m : Memory) {fuel a : Nat} (h : memWords ≤ a + fuel) :
    ((m.disassemble fuel a).flatMap fun line => line.2.words) = m.readWords a (memWords - a) := by
  induction fuel generalizing a with
  | zero =>
    have hle : memWords ≤ a := h
    rw [Nat.sub_eq_zero_of_le hle]
    rfl
  | succ fuel ih =>
    by_cases ha : a < memWords
    · obtain ⟨line, hdis, hwords, hpos⟩ := Memory.disassemble_succ (m := m) ha fuel
      have hfit : line.words.length ≤ memWords - a := by
        rw [hwords, Memory.length_readWords]
        exact Nat.min_le_right _ _
      obtain ⟨k, hk⟩ := Nat.exists_eq_add_of_le hfit
      have hrest : memWords - (a + line.words.length) = k := by omega
      rw [hdis, List.flatMap_cons, ih (by omega), hk, hrest, Memory.readWords_add (by omega), ← hwords]
    · rw [Memory.disassemble_of_le (Nat.not_lt.mp ha), Nat.sub_eq_zero_of_le (Nat.not_lt.mp ha)]
      rfl

/-- Each line's words are those at its address. -/
theorem Memory.words_of_mem_disassemble {m : Memory} {fuel a : Nat} {line : Nat × DisasmItem}
    (h : line ∈ m.disassemble fuel a) : line.2.words = m.readWords line.1 line.2.words.length := by
  induction fuel generalizing a with
  | zero => cases h
  | succ fuel ih =>
    by_cases ha : a < memWords
    · obtain ⟨first, hdis, hwords, -⟩ := Memory.disassemble_succ (m := m) ha fuel
      rw [hdis] at h
      rcases List.mem_cons.mp h with rfl | h
      · exact hwords
      · exact ih h
    · rw [Memory.disassemble_of_le (Nat.not_lt.mp ha)] at h
      cases h

/-- Settles O54: each line is tied to the words at its address, and the next line begins behind them. -/
theorem disassemblyCoversMemory : Obligations.DisassemblyCoversMemory :=
  fun s => ⟨s.mem.flatMap_words_disassemble (Nat.zero_add memWords).ge, fun _ => Memory.words_of_mem_disassemble⟩

end Sys2Proof.Machine
